-- ==== Sys2Proof/Word.lean ====
section
/-! DEFINITION. The words of the block: bytes, samples, `Int`s, binary32 patterns and the command word
(spec/00_scope.md R12, spec/30_encoding.md R52). -/

namespace Sys2Proof

/-- A byte of the transfer buffer or of a stream (R12 `Byte`). -/
abbrev Byte := BitVec 8

/-- A 16-bit PCM sample pattern (R53). -/
abbrev Sample := BitVec 16

/-- R56: an `Int` of the interfaces, 32 bits, two's complement: sample rate, channel count, host answers,
results. -/
abbrev Word := BitVec 32

/-- R54: the 32-bit pattern of a binary32 value. -/
abbrev F32 := BitVec 32

/-- R57: a command word, `CMD_W` = 67 bits. -/
abbrev CmdWord := BitVec 67

end Sys2Proof
end

