-- ==== Sys2Proof/Config.lean ====
section
/-! DEFINITION. What an implementation fixes (spec/00_scope.md R7 to R10) and the values the spec leaves open, each an
opaque constant: nothing in Lean can evaluate one or prove a value of it. -/

namespace Sys2Proof

/-- R18: the five constants of one stage. `a0`, `a1`, `a2` multiply the inputs, `b1`, `b2` the past outputs. -/
structure Coeffs where
  a0 : F32
  a1 : F32
  a2 : F32
  b1 : F32
  b2 : F32
  deriving DecidableEq, Repr, Inhabited

/-- R9: the table `COEF`, entry `k` for stage `k`. -/
abbrev CoefTable := Vector Coeffs 9

/-- R14: the four history registers of one stage. -/
structure History where
  inZ1 : F32
  inZ2 : F32
  outZ1 : F32
  outZ2 : F32
  deriving DecidableEq, Repr, Inhabited

/-- R27: the pass-through configuration registers `cfg.*`. -/
structure Passthrough where
  outBufSize : Word
  stackSize : Word
  coreAffinity : Word
  priority : Word
  deriving DecidableEq, Repr, Inhabited

/-- R130: the construction parameters RESET takes as its arguments. -/
structure ResetParams where
  coef : CoefTable
  initRate : Word
  initCh : Word
  cfg : Passthrough
  deriving DecidableEq, Repr, Inhabited

/-- R69, U6: a NaN: either sign, any fraction but zero (`frac + 1` is the fraction field). -/
structure NaNBits where
  sign : Bool
  frac : Fin 8388607
  deriving DecidableEq, Repr, Inhabited

/-- R32: the registers DESTROY leaves with unspecified values (all of R13 but `life`, the buffer's bytes
apart). -/
structure Unspecified where
  z : Vector History 9
  coef : CoefTable
  fmtRate : Word
  fmtCh : Word
  eos : Bool
  bufValid : Bool
  cnt : Word
  cfg : Passthrough
  deriving DecidableEq, Repr, Inhabited

namespace Config

/-- R7 `BUF_SIZE`: bytes of the transfer buffer, of every read request and of every write. -/
def bufSize : Nat := 128

/-- R55: `32767.0f`, the divisor of normalisation and the multiplier of rescaling. -/
def scale : F32 := 0x46FFFE00#32

/-- R16: positive zero, the reset value of every history register. -/
def zeroF32 : F32 := 0x00000000#32

/-- R61, R10 `OK`. -/
def ok : Word := 0#32

/-- R61, R10 `ERR_INVALID_ARG`. -/
def errInvalidArg : Word := 1#32

/-- R61, R10 `ERR_NO_MEM`. -/
def errNoMem : Word := 2#32

/-- R9 `COEF`: the nine coefficient sets, which no source gives. A free value (log entry 4). -/
opaque coefTable : CoefTable

/-- R69 `NAN_CHOICE`: the NaN a NaN result is, at each occurrence. A free value (log entry 5). -/
opaque nanChoice : Nat → NaNBits

/-- R96 `F2I_OOR`: the pattern of a rescaled value that has no 16-bit value, at each occurrence. A free
value (log entry 6). -/
opaque f2iOutOfRange : Nat → Sample

/-- R32, U8: what the registers hold after DESTROY. A free value (log entry 8). -/
opaque afterDestroy : Nat → Unspecified

/-- R25, U7, D38: what a byte of the buffer holds while the buffer is not valid, by draw and address. A free
value (log entry 7). -/
opaque unspecifiedByte : Nat → Nat → Byte

/-- R8: the construction parameters with the documented defaults. -/
def defaultParams : ResetParams where
  coef := coefTable
  initRate := 48000#32
  initCh := 1#32
  cfg := { outBufSize := 8192#32, stackSize := 4096#32, coreAffinity := 0#32, priority := 5#32 }

end Config

end Sys2Proof
end

