-- ==== Sys2Proof/Syntax.lean ====
section
/-! DEFINITION. The five commands (spec/30_encoding.md R58), and what the host puts on the block's interface: command
words, RESET events and answers to host calls (spec/20_memory.md R40 to R44). -/

namespace Sys2Proof

/-- R58, R60: the commands, one constructor per row of spec/opcode_table.json. -/
inductive Instr where
  /-- CONFIGURE rate, ch (R80). -/
  | configure (rate ch : Word)
  /-- OPEN (R85). -/
  | openStream
  /-- PROCESS (R100). -/
  | process
  /-- CLOSE (R87). -/
  | closeStream
  /-- DESTROY (R88). -/
  | destroy
  deriving DecidableEq, Repr

/-- One thing the host does (R44, the bracketed answers of R65). -/
inductive HostInput where
  /-- Issue a command word (R57). -/
  | command (w : CmdWord)
  /-- Assert RESET with its construction parameters (R130). -/
  | reset (p : ResetParams)
  /-- Settle what HostFormat will answer, `(hr, hc)`: an "override supplied by the host before/at open" (R42). -/
  | format (hr hc : Word)
  /-- Settle what HostAlloc will answer: `ok` or `fail` (R43). -/
  | alloc (ok : Bool)
  /-- Answer HostRead with the count `r` and the bytes `data` (R40). -/
  | read (r : Word) (data : List Byte)
  /-- Answer HostWrite with `w` (R41). -/
  | write (w : Word)
  deriving DecidableEq, Repr

end Sys2Proof
end

