-- ==== Sys2Proof/WellFormed.lean ====
section
/-! DEFINITION. Which commands and host inputs are well formed. Every command is (spec/30_encoding.md R59: "every one of the
2^64 operand pairs is a well-formed CONFIGURE"); the one check is the host's duty on a HostRead answer. -/

namespace Sys2Proof

/-- R59: an operand is a full 32-bit field and none is excluded, so no command is ill formed. -/
def Instr.wf : Instr → Bool
  | .configure _ _ => true
  | .openStream => true
  | .process => true
  | .closeStream => true
  | .destroy => true

/-- R40, R44, U4: a HostRead answer keeps the host's duty: `r` is at most 128, and there are `r` bytes
when `r` is positive and none otherwise. -/
def readAnswerWf (r : Word) (data : List Byte) : Bool :=
  decide (r.toInt ≤ 128) && decide (data.length = r.toInt.toNat)

/-- R44: the duties on one host input taken alone. -/
def HostInput.wf : HostInput → Bool
  | .command _ => true
  | .reset _ => true
  | .format _ _ => true
  | .alloc _ => true
  | .read r data => readAnswerWf r data
  | .write _ => true

end Sys2Proof
end

