-- ==== Sys2Proof/Decode.lean ====
section
/-! DEFINITION. The command word: decoding, then encoding (spec/30_encoding.md R57 to R59, R63, spec/opcode_table.json). -/

namespace Sys2Proof

/-- R57: the field `op`, bits 66:64. -/
def opField (w : CmdWord) : BitVec 3 := w.extractLsb' 64 3

/-- R57, R59: the field `rate`, bits 63:32. -/
def rateField (w : CmdWord) : Word := w.extractLsb' 32 32

/-- R57, R59: the field `ch`, bits 31:0. -/
def chField (w : CmdWord) : Word := w.extractLsb' 0 32

/-- Why a word is no command. -/
inductive DecodeError where
  /-- R63: opcode 5, 6 or 7. -/
  | reservedOpcode (op : BitVec 3)
  deriving DecidableEq, Repr

/-- R58, R59, R63: the opcode alone selects the command; commands without operands ignore bits 63:0. -/
def decode (w : CmdWord) : Except DecodeError Instr :=
  match (opField w).toNat with
  | 0 => .ok (.configure (rateField w) (chField w))
  | 1 => .ok .openStream
  | 2 => .ok .process
  | 3 => .ok .closeStream
  | 4 => .ok .destroy
  | _ => .error (.reservedOpcode (opField w))

/-- R58: the opcode of each command. -/
def Instr.opcode : Instr → BitVec 3
  | .configure _ _ => 0b000#3
  | .openStream => 0b001#3
  | .process => 0b010#3
  | .closeStream => 0b011#3
  | .destroy => 0b100#3

/-- R57: a command word from its three fields. -/
def packWord (op : BitVec 3) (rate ch : Word) : CmdWord := op ++ rate ++ ch

/-- R57 to R59: the word of a command; "An assembler writes zero" in ignored operand fields. -/
def encode : Instr → CmdWord
  | .configure rate ch => packWord (Instr.configure rate ch).opcode rate ch
  | .openStream => packWord Instr.openStream.opcode 0#32 0#32
  | .process => packWord Instr.process.opcode 0#32 0#32
  | .closeStream => packWord Instr.closeStream.opcode 0#32 0#32
  | .destroy => packWord Instr.destroy.opcode 0#32 0#32

/-- R58: the column `mask`, the same for every row. -/
def opcodeMask : CmdWord := 0x70000000000000000#67

/-- R58: the column `match` of a command's row. -/
def Instr.matchWord : Instr → CmdWord
  | .configure _ _ => 0x00000000000000000#67
  | .openStream => 0x10000000000000000#67
  | .process => 0x20000000000000000#67
  | .closeStream => 0x30000000000000000#67
  | .destroy => 0x40000000000000000#67

/-- The command word of an opcode-table row's bits: the low `nbits` bits of `w`, as many as the port has
(log entry 14). -/
def tableWord (nbits w : Nat) : CmdWord := BitVec.ofNat 67 (w % 2 ^ nbits)

/-- The command this decoder reads from an opcode-table row's bits. -/
def decodeTableWord (nbits w : Nat) : Option Instr :=
  match decode (tableWord nbits w) with
  | .ok i => some i
  | .error _ => none

end Sys2Proof
end

