-- ==== Sys2Proof/Machine/State.lean ====
section
/-! DEFINITION. The state of one instance of the block (spec/10_state.md R13), the command in progress, and the host's side
of the interface; the reasons a step can stop; the state after RESET. -/

namespace Sys2Proof.Machine

/-- R23: the values of the lifecycle register. -/
inductive Life where
  | created
  | opened
  | closed
  | destroyed
  | failed
  deriving DecidableEq, Repr

/-- R111, R129: the host call a command in progress waits on. The only waiting is inside PROCESS. -/
inductive Call where
  | read
  | write
  deriving DecidableEq, Repr

/-- R42, R43: what the host answers when OPEN calls HostFormat and HostAlloc (log entry 20). A value 0 of the
pair is "not supplied". -/
structure OpenAnswers where
  rate : Word
  ch : Word
  alloc : Bool
  deriving DecidableEq, Repr

/-- R33, R34: the transfer buffer, addresses rising. Every address 0 to 127 is listed, from reset on; an
unlisted address does not exist. -/
abbrev Memory := List Host.Cell

/-- R25, U7: the buffer while it is not valid: every byte holds a free value, that of the draw `d` (log entry
7). -/
def unspecifiedBuffer (d : Nat) : Memory :=
  (List.range Config.bufSize).map fun a => (a, Config.unspecifiedByte d a)

/-- R13, and beside it: the call in progress (`waiting`, log entry 2), the counter the free values are
applied to (`draws`, log entry 5), what the host does next (`inputs`, log entry 1), what it answers OPEN
(`answers`, log entry 20), and what it has received: result words and blocks given to HostWrite (`results`, `blocks`, log entry 9). -/
structure State where
  z : Vector History 9
  coef : CoefTable
  fmtRate : Word
  fmtCh : Word
  life : Life
  eos : Bool
  bufValid : Bool
  buf : Memory
  cnt : Word
  cfg : Passthrough
  waiting : Option Call
  draws : Nat
  inputs : List HostInput
  answers : OpenAnswers
  results : List Word
  blocks : List (List Byte)
  deriving DecidableEq, Repr

/-- What stops the machine with a fault. No command raises one in a state that keeps `Safety.Inv`. -/
inductive Fault where
  /-- Raised by MemRead and MemWrite on an address that does not exist: one outside 0 to 127 (R35). Safe. -/
  | addressOutOfRange (a : Nat)
  deriving DecidableEq, Repr

/-- What the step refuses: situations the sources give no meaning (R12 `refuse`). -/
inductive Refusal where
  /-- Raised by an arm of `exec` whose instruction has no meaning yet. Safe. -/
  | notModelled (mnemonic : String)
  /-- Raised by the step on a command word with opcode 5, 6 or 7 (R63, U1). Safe. -/
  | reservedOpcode (op : BitVec 3)
  /-- Raised by every command that R84 does not allow in the present lifecycle state (U2). Safe. -/
  | notLegal (life : Life)
  /-- Raised by every command issued before the previous one has delivered its result (R135, U3). Safe. -/
  | overlapping
  /-- Raised by PROCESS on a HostRead answer that breaks the host's duty (R44, R112, U4). Safe. -/
  | readContract
  /-- Raised by the step and by every host call on an answer to a call that was not made (R44). Safe. -/
  | strayAnswer
  deriving DecidableEq, Repr

/-- The outcomes of a command. -/
abbrev Out := Host.Outcome State Fault Refusal

/-- R16: the history of a stage after RESET. -/
def silentHistory : History :=
  { inZ1 := Config.zeroF32, inZ2 := Config.zeroF32, outZ1 := Config.zeroF32, outZ2 := Config.zeroF32 }

/-- R131: the machine right after RESET with the default construction parameters of R8. The host has
done nothing yet: nothing is placed in `inputs`, no pair is
supplied and a buffer can be had. The buffer's bytes are those of the draw 0, so the next draw is
1. -/
def State.reset : State where
  z := Vector.replicate 9 silentHistory
  coef := Config.defaultParams.coef
  fmtRate := Config.defaultParams.initRate
  fmtCh := Config.defaultParams.initCh
  life := .created
  eos := false
  bufValid := false
  buf := unspecifiedBuffer 0
  cnt := 0#32
  cfg := Config.defaultParams.cfg
  waiting := none
  draws := 1
  inputs := []
  answers := { rate := 0#32, ch := 0#32, alloc := true }
  results := []
  blocks := []

end Sys2Proof.Machine
end

