-- ==== Sys2Proof/Machine/Float.lean ====
section
/-! DEFINITION. The binary32 arithmetic of the block, the record `FP` (spec/40_biquad.md R67 to R72, spec/30_encoding.md
R54, spec/44_sample_conversion.md R94 to R96): exact arithmetic on integers, then one rounding to nearest, ties to even.
Every finite binary32 value is an integer multiple of 2^-149, its value in UNITS.

An operation takes the index `d` of its draw: where its IEEE result is a NaN, the result is `NAN_CHOICE` at `d` (log
entry 5). -/

namespace Sys2Proof.Machine

/-- R54: bit 31. -/
def fSign (a : F32) : Bool := a.getLsbD 31

/-- R54: bits 30:23. -/
def fExp (a : F32) : Nat := a.toNat / 2 ^ 23 % 256

/-- R54: bits 22:0. -/
def fFrac (a : F32) : Nat := a.toNat % 2 ^ 23

/-- R54: exponent 255, fraction not zero. -/
def isNaN (a : F32) : Bool := fExp a == 255 && fFrac a != 0

/-- R54: exponent 255, fraction zero. -/
def isInf (a : F32) : Bool := fExp a == 255 && fFrac a == 0

/-- R54: a zero, a subnormal or a normal number. -/
def isFinite (a : F32) : Bool := fExp a != 255

/-- R54: exponent and fraction zero. -/
def isZero (a : F32) : Bool := fExp a == 0 && fFrac a == 0

/-- R54: the magnitude of a finite value in units of 2^-149: `frac` for a zero or subnormal number,
`(2^23 + frac) * 2^(exp - 1)` for a normal one. -/
def units (a : F32) : Nat :=
  if fExp a = 0 then fFrac a else (2 ^ 23 + fFrac a) * 2 ^ (fExp a - 1)

/-- R54: a finite value in units of 2^-149. -/
def value (a : F32) : Int := if fSign a then -(units a : Int) else (units a : Int)

/-- A pattern from its sign and its bits 30:0. -/
def signed (neg : Bool) (mag : Nat) : F32 := BitVec.ofNat 32 ((if neg then 2 ^ 31 else 0) + mag)

/-- R54: bits 30:0 of an infinity. -/
def infMag : Nat := 0x7F800000

/-- R69: the NaN that the draw `d` gives. -/
def nanOf (d : Nat) : F32 :=
  signed (Config.nanChoice d).sign (infMag + ((Config.nanChoice d).frac.val + 1))

/-- The integer nearest `num / den`, ties to even (R68). -/
def roundNat (num den : Nat) : Nat :=
  if 2 * (num % den) > den ∨ (2 * (num % den) = den ∧ num / den % 2 = 1) then num / den + 1
  else num / den

/-- How many bits below the last significand bit of a magnitude of `q` whole units lie: 0 up to 2^24
units (subnormal numbers and the first normal binade, spacing one unit), then one more a binade. -/
def binade (q : Nat) : Nat := q.log2 - 23

/-- R68, R71: bits 30:0 of the binary32 magnitude nearest `num / den` units, ties to even; gradual
underflow; past the largest finite number, an infinity. A significand `k` in the binade `e` has the
pattern `e * 2^23 + k`, also where rounding has carried `k` into the next binade. -/
def roundMag (num den : Nat) : Nat :=
  let e := binade (num / den)
  min (e * 2 ^ 23 + roundNat num (den * 2 ^ e)) infMag

/-- The value with the opposite sign bit. -/
def fneg (a : F32) : F32 := signed (!fSign a) (a.toNat % 2 ^ 31)

/-- R68 to R71: `a + b`. -/
def fadd (d : Nat) (a b : F32) : F32 :=
  if isNaN a || isNaN b then nanOf d
  else if isInf a then (if isInf b && (fSign a != fSign b) then nanOf d else a)
  else if isInf b then b
  else if value a + value b = 0 then signed (fSign a && fSign b) 0
  else signed (decide (value a + value b < 0)) (roundMag (value a + value b).natAbs 1)

/-- R70: `a - b` is `fadd(a, -b)`. -/
def fsub (d : Nat) (a b : F32) : F32 := fadd d a (fneg b)

/-- R68 to R71: `a * b`. -/
def fmul (d : Nat) (a b : F32) : F32 :=
  if isNaN a || isNaN b then nanOf d
  else if isInf a || isInf b then
    (if isZero a || isZero b then nanOf d else signed (fSign a != fSign b) infMag)
  else signed (fSign a != fSign b) (roundMag (units a * units b) (2 ^ 149))

/-- R68: `a / b`. The block divides by `32767.0f` only (R91); an infinite dividend or divisor and a zero
divisor follow IEEE 754 (log entry 11). -/
def fdiv (d : Nat) (a b : F32) : F32 :=
  if isNaN a || isNaN b then nanOf d
  else if isInf a then (if isInf b then nanOf d else signed (fSign a != fSign b) infMag)
  else if isInf b then signed (fSign a != fSign b) 0
  else if isZero b then
    (if isZero a then nanOf d else signed (fSign a != fSign b) infMag)
  else signed (fSign a != fSign b) (roundMag (units a * 2 ^ 149) (units b))

/-- R94: the binary32 value equal to a 16-bit signed integer. -/
def i2f (s : Sample) : F32 :=
  signed (decide (s.toInt < 0)) (roundMag (s.toInt.natAbs * 2 ^ 149) 1)

/-- R95: `q` is finite and `-32769 < q < 32768`. -/
def f2iInRange (q : F32) : Bool :=
  isFinite q && decide (-32769 * 2 ^ 149 < value q) && decide (value q < 32768 * 2 ^ 149)

/-- R95, R96: the pattern of `trunc(q)`, or `F2I_OOR` at the draw `d`. -/
def f2i (d : Nat) (q : F32) : Sample :=
  if f2iInRange q then BitVec.ofInt 16 ((value q).tdiv (2 ^ 149)) else Config.f2iOutOfRange d

end Sys2Proof.Machine
end

