-- ==== Sys2Proof/Machine/Ops.lean ====
section
/-! DEFINITION. The shared operations: the transfer buffer, the register files, host calls, delivering a result word,
`raise`, which command is legal when, and RESET. -/

namespace Sys2Proof.Machine

/-! ### The transfer buffer -/

/-- R35: the byte at an address, `none` where the address does not exist. -/
def readByte : Memory → Nat → Option Byte
  | [], _ => none
  | (b, v) :: m, a => if a = b then some v else readByte m a

/-- R35: store one byte, keeping the addresses rising. -/
def writeByte : Memory → Nat → Byte → Memory
  | [], a, v => [(a, v)]
  | (b, w) :: m, a, v =>
    if a < b then (a, v) :: (b, w) :: m
    else if a = b then (a, v) :: m
    else (b, w) :: writeByte m a v

/-- R35: store a list of bytes at ascending addresses. -/
def writeBytes : Memory → Nat → List Byte → Memory
  | m, _, [] => m
  | m, a, v :: vs => writeBytes (writeByte m a v) (a + 1) vs

/-- R35: the bytes at `n` ascending addresses. -/
def readBytes (m : Memory) : Nat → Nat → Except Fault (List Byte)
  | _, 0 => .ok []
  | a, n + 1 =>
    match readByte m a with
    | none => .error (.addressOutOfRange a)
    | some v =>
      match readBytes m (a + 1) n with
      | .error f => .error f
      | .ok vs => .ok (v :: vs)

/-- R35 MemRead: requires `addr + n <= 128`. -/
def memRead (m : Memory) (addr n : Nat) : Except Fault (List Byte) :=
  if addr + n ≤ Config.bufSize then readBytes m addr n
  else .error (.addressOutOfRange (max addr Config.bufSize))

/-- R35 MemWrite: requires `addr + n <= 128`. -/
def memWrite (m : Memory) (addr : Nat) (v : List Byte) : Except Fault Memory :=
  if addr + v.length ≤ Config.bufSize then .ok (writeBytes m addr v)
  else .error (.addressOutOfRange (max addr Config.bufSize))

/-- Addresses rise strictly from `lo` and stay in the address space of R33. -/
def risingFrom : Nat → Memory → Bool
  | _, [] => true
  | lo, (a, _) :: m => decide (lo ≤ a) && decide (a < Config.bufSize) && risingFrom (a + 1) m

/-- The canonical form of the buffer: addresses strictly rising, all of them in 0 to 127. No entry can
equal what an unlisted address reads as, since an unlisted address does not exist. -/
def Memory.wf (m : Memory) : Bool := risingFrom 0 m

/-- R33, R34: every address 0 to 127 holds a byte, with no holes. -/
def Memory.allocated (m : Memory) : Bool :=
  (List.range Config.bufSize).all fun a => (readByte m a).isSome

/-- Go on with a buffer access that succeeded; a failed one is a fault. -/
def orFault {α : Type} (r : Except Fault α) (k : α → Out) : Out :=
  match r with
  | .error f => .fault f
  | .ok a => k a

/-! ### The register files -/

/-- R17: the four history registers of stage `k`. -/
def readHist (s : State) (k : Fin 9) : History := s.z[k]

/-- R17: write the four history registers of stage `k` and no other. -/
def writeHist (s : State) (k : Fin 9) (h : History) : State := { s with z := s.z.set k h }

/-- R18, R19: the constants of stage `k`. -/
def readCoef (s : State) (k : Fin 9) : Coeffs := s.coef[k]

/-- The draws up to `n` further on are used up. -/
def useDraws (n : Nat) (s : State) : State := { s with draws := s.draws + n }

/-- R20, R80: both fields of `fmt` are replaced together. -/
def setFmt (rate ch : Word) (s : State) : State := { s with fmtRate := rate, fmtCh := ch }

/-- R23: the lifecycle register. -/
def setLife (l : Life) (s : State) : State := { s with life := l }

/-- The buffer's contents. -/
def setBuf (m : Memory) (s : State) : State := { s with buf := m }

/-- R26, R106: `cnt <- (cnt + r) mod 2^32`. -/
def countBytes (r : Word) (s : State) : State := { s with cnt := s.cnt + r }

/-- R23: the 3-bit encoding of the lifecycle register, which no command exposes (log entry 12). -/
def lifeCode : Life → BitVec 3
  | .created => 0#3
  | .opened => 1#3
  | .closed => 2#3
  | .destroyed => 3#3
  | .failed => 4#3

/-! ### Results and errors -/

/-- R12, R47: the command ends and its result word reaches the host. -/
def deliver (w : Word) (s : State) : State :=
  { s with results := s.results ++ [w], waiting := none }

/-- R12 `return`. -/
def finish (w : Word) (s : State) : Out := .next (deliver w s)

/-- R12, R113: the error kinds the block raises. -/
inductive ErrorKind where
  | invalidArgument
  | outOfMemory
  deriving DecidableEq, Repr

/-- R114: the result word that reports an error. -/
def errorWord : ErrorKind → Word
  | .invalidArgument => Config.errInvalidArg
  | .outOfMemory => Config.errNoMem

/-- R114, R121 `raise`: the command ends with the error's result word. Nothing is saved, no mode changes,
no control transfer takes place, no flag is set; what the command has written stays written. There is no
return operation beside it (R122). -/
def raise (e : ErrorKind) (s : State) : Out := finish (errorWord e) s

/-! ### Issuing a command -/

/-- R84: which command is legal in which state. -/
def legal : Instr → Life → Bool
  | .configure _ _, l => l != .destroyed
  | .openStream, l => l == .created
  | .process, l => l == .opened
  | .closeStream, l => l == .opened || l == .failed
  | .destroy, l => l == .closed || l == .failed

/-- R84, R135: a command runs only when no other is in progress and the lifecycle state allows it;
otherwise it has no defined effect and no defined result. -/
def issue (i : Instr) (s : State) (body : State → Out) : Out :=
  if s.waiting.isSome then .refused .overlapping
  else if legal i s.life then body s
  else .refused (.notLegal s.life)

/-! ### Host calls -/

/-- Is this input an answer to a host call that a command waits on? -/
def isAnswer : HostInput → Bool
  | .command _ => false
  | .reset _ => false
  | .format _ _ => false
  | .alloc _ => false
  | .read _ _ => true
  | .write _ => true

/-- R40. -/
def readAnswer : HostInput → Option (Word × List Byte)
  | .read r data => some (r, data)
  | _ => none

/-- R41. -/
def writeAnswer : HostInput → Option Word
  | .write w => some w
  | _ => none

/-- R40, R41, R111: PROCESS calls the host. Where the host's next input answers the call, it
goes on with the answer; where the host has not answered, the command waits at the call, all state kept
(R129, log entry 2); an answer to another call is refused (log entry 3). -/
def callHost {α : Type} (c : Call) (pick : HostInput → Option α) (s : State) (k : α → State → Out) :
    Out :=
  match s.inputs with
  | [] => .next { s with waiting := some c }
  | x :: rest =>
    match pick x with
    | some a => k a { s with inputs := rest, waiting := none }
    | none => if isAnswer x then .refused .strayAnswer else .next { s with waiting := some c }

/-- R42: the host's answer to HostFormat is settled; the call "has no effect on the block's state by itself". -/
def setFormatAnswer (hr hc : Word) (s : State) : State :=
  { s with answers := { s.answers with rate := hr, ch := hc } }

/-- R43: the host's answer to HostAlloc is settled. -/
def setAllocAnswer (ok : Bool) (s : State) : State :=
  { s with answers := { s.answers with alloc := ok } }

/-! ### RESET -/

/-- R130, R131: RESET, in any state; a command in progress delivers no result. The buffer's bytes are a new
draw (log entry 7). The host's side, its streams and the results it has, is not state of the block and stays
(log entry 9). -/
def applyReset (p : ResetParams) (s : State) : State :=
  { s with
    z := Vector.replicate 9 silentHistory
    coef := p.coef
    fmtRate := p.initRate
    fmtCh := p.initCh
    life := .created
    eos := false
    bufValid := false
    buf := unspecifiedBuffer s.draws
    cnt := 0#32
    cfg := p.cfg
    waiting := none
    draws := s.draws + 1 }

/-- R32, R88: from DESTROY on every register but `life` is unspecified: each holds a free value (log entry
8), and so does every byte of the buffer (log entry 7). -/
def unspecifyRegisters (s : State) : State :=
  let u := Config.afterDestroy s.draws
  { s with
    z := u.z
    coef := u.coef
    fmtRate := u.fmtRate
    fmtCh := u.fmtCh
    eos := u.eos
    bufValid := u.bufValid
    buf := unspecifiedBuffer s.draws
    cnt := u.cnt
    cfg := u.cfg
    draws := s.draws + 1 }

end Sys2Proof.Machine
end

