-- ==== Sys2Proof/Machine/Flags.lean ====
section
/-! DEFINITION. The only flags of the block, `eos` and `bufValid` (spec/10_state.md R24, R25, R29). There are no arithmetic
and no floating-point flags. -/

namespace Sys2Proof.Machine

/-- R24, R85: a successful OPEN clears `eos`. -/
def clearEos (s : State) : State := { s with eos := false }

/-- R24, R105: a read of fewer than 128 bytes marks the end of the stream; a full one leaves `eos`. -/
def noteShortRead (r : Word) (s : State) : State :=
  { s with eos := if r.toInt < 128 then true else s.eos }

/-- R25, R85: a successful OPEN makes the buffer valid. -/
def validateBuffer (s : State) : State := { s with bufValid := true }

/-- R25, R87: the buffer, if valid, is released and its contents become unspecified: every byte holds the free
value of a new draw (log entry 7). -/
def releaseBuffer (s : State) : State :=
  if s.bufValid then { s with bufValid := false, buf := unspecifiedBuffer s.draws, draws := s.draws + 1 }
  else s

end Sys2Proof.Machine
end

