-- ==== Sys2Proof/Machine/Operands.lean ====
section
/-! DEFINITION. The operand forms: the two `Int` operands of CONFIGURE stand in the instruction itself, full width and
unscaled (spec/30_encoding.md R59); the others are the pair OPEN uses, the sample slots of the buffer, and how many
samples a read holds. -/

namespace Sys2Proof.Machine

/-- R85: the pair OPEN will validate: the host's where both values are non-zero, otherwise the block's
own. -/
def chosenPair (hr hc : Word) (s : State) : Word × Word :=
  if hr ≠ 0#32 ∧ hc ≠ 0#32 then (hr, hc) else (s.fmtRate, s.fmtCh)

/-- R37: the address after a sample at `i`. -/
def nextSlot (i : Nat) : Nat := i + 2

/-- R37, R107: `n = floor(r / 2)`, the whole samples of a read of `r` bytes. -/
def samplesIn (r : Word) : Nat := r.toNat / 2

/-- R53: `hi ++ lo`. -/
def joinBytes (hi lo : Byte) : Sample := hi ++ lo

/-- R53: `p[15:8]`. -/
def highByte (p : Sample) : Byte := p.extractLsb' 8 8

/-- R53: `p[7:0]`. -/
def lowByte (p : Sample) : Byte := p.extractLsb' 0 8

end Sys2Proof.Machine
end

