-- ==== Sys2Proof/Machine/Format.lean ====
section
/-! DEFINITION. FMT.VRATE, FMT.VCH and the command CONFIGURE (spec/42_format.md R78 to R82). -/

namespace Sys2Proof.Machine

/-- R78 FMT.VRATE. -/
def fmtVRate (v : Word) : Bool :=
  v == 11025#32 || v == 22050#32 || v == 44100#32 || v == 48000#32

/-- R79 FMT.VCH. -/
def fmtVCh (v : Word) : Bool := v == 1#32 || v == 2#32

/-- R80 CONFIGURE: the identity shortcut, then validation, then both fields are replaced. -/
def execConfigure (rate ch : Word) (s : State) : Out :=
  issue (.configure rate ch) s fun s =>
    if rate = s.fmtRate ∧ ch = s.fmtCh then finish Config.ok s
    else if fmtVRate rate && fmtVCh ch then finish Config.ok (setFmt rate ch s)
    else raise .invalidArgument s

end Sys2Proof.Machine
end

