-- ==== Sys2Proof/Machine/Lifecycle.lean ====
section
/-! DEFINITION. OPEN, CLOSE and DESTROY (spec/43_lifecycle.md R83 to R89). -/

namespace Sys2Proof.Machine

/-- R34, R85: 128 zero bytes. -/
def zeroBlock : List Byte := List.replicate Config.bufSize 0#8

/-- R85: what a successful OPEN writes. -/
def openWith (rate ch : Word) (m : Memory) (s : State) : State :=
  setLife .opened (validateBuffer (setBuf m (clearEos (setFmt rate ch s))))

/-- R43, R85, second part: HostAlloc, asked once the pair is valid and answered at once (R129). -/
def openAlloc (rate ch : Word) (s : State) : Out :=
  if s.answers.alloc then
    orFault (memWrite s.buf 0 zeroBlock) fun m => finish Config.ok (openWith rate ch m s)
  else raise .outOfMemory (setLife .failed s)

/-- R42, R85, first part: HostFormat, answered at once (R129), and the validation of the pair. A failing OPEN
writes `life` only (R86). -/
def openFormat (s : State) : Out :=
  let p := chosenPair s.answers.rate s.answers.ch s
  if fmtVRate p.1 && fmtVCh p.2 then openAlloc p.1 p.2 s
  else raise .invalidArgument (setLife .failed s)

/-- R85 OPEN. -/
def execOpenStream (s : State) : Out := issue .openStream s openFormat

/-- R87 CLOSE. -/
def execCloseStream (s : State) : Out :=
  issue .closeStream s fun s => finish Config.ok (setLife .closed (releaseBuffer s))

/-- R88 DESTROY. -/
def execDestroy (s : State) : Out :=
  issue .destroy s fun s => finish Config.ok (setLife .destroyed (unspecifyRegisters s))

end Sys2Proof.Machine
end

