-- ==== Sys2Proof/Machine/Biquad.lean ====
section
/-! DEFINITION. BQ.APPLY and CHAIN.APPLYALL (spec/40_biquad.md R66, R67, spec/41_chain.md R75 to R77). -/

namespace Sys2Proof.Machine

/-- R66, R67: the output of a stage: five products, then four sums from the left, each rounded on its own.
The nine operations take the draws `d` to `d + 8`. -/
def bqOutput (d : Nat) (c : Coeffs) (h : History) (x : F32) : F32 :=
  let t1 := fmul d c.a0 x
  let t2 := fmul (d + 1) c.a1 h.inZ1
  let t3 := fmul (d + 2) c.a2 h.inZ2
  let t4 := fmul (d + 3) c.b1 h.outZ1
  let t5 := fmul (d + 4) c.b2 h.outZ2
  fsub (d + 8) (fsub (d + 7) (fadd (d + 6) (fadd (d + 5) t1 t2) t3) t4) t5

/-- R66: the history after a step with input `x` and output `y`. -/
def shiftHistory (h : History) (x y : F32) : History :=
  { inZ1 := x, inZ2 := h.inZ1, outZ1 := y, outZ2 := h.outZ1 }

/-- R66 BQ.APPLY: one step of stage `k`. -/
def bqApply (k : Fin 9) (x : F32) (s : State) : F32 × State :=
  let y := bqOutput s.draws (readCoef s k) (readHist s k) x
  (y, useDraws 9 (writeHist s k (shiftHistory (readHist s k) x y)))

/-- R75: the stages in the order given, each output the next stage's input. -/
def applyStages : List (Fin 9) → F32 → State → F32 × State
  | [], v, s => (v, s)
  | k :: ks, v, s => applyStages ks (bqApply k v s).1 (bqApply k v s).2

/-- R75, R76: the stages of the chain, ascending, none skipped. -/
def stageOrder : List (Fin 9) := [0, 1, 2, 3, 4, 5, 6, 7, 8]

/-- R75 CHAIN.APPLYALL. -/
def chainApplyAll (x : F32) (s : State) : F32 × State := applyStages stageOrder x s

end Sys2Proof.Machine
end

