-- ==== Sys2Proof/Machine/Sample.lean ====
section
/-! DEFINITION. SMP.DECODE, SMP.NORM, SMP.RESCALE, SMP.ENCODE and the per-sample operation of PROCESS
(spec/44_sample_conversion.md R90 to R99). -/

namespace Sys2Proof.Machine

/-- R90 SMP.DECODE: high byte at the lower address. -/
def smpDecode (i : Nat) (s : State) : Except Fault Sample :=
  match memRead s.buf i 2 with
  | .ok [hi, lo] => .ok (joinBytes hi lo)
  | .ok _ => .error (.addressOutOfRange i)
  | .error f => .error f

/-- R91 SMP.NORM: one binary32 division, at the draw `d`. -/
def smpNorm (d : Nat) (v : Sample) : F32 := fdiv d (i2f v) Config.scale

/-- R92 SMP.RESCALE: one binary32 multiplication, then truncation, at the draws `d` and `d + 1`. -/
def smpRescale (d : Nat) (y : F32) : Sample := f2i (d + 1) (fmul d y Config.scale)

/-- R93 SMP.ENCODE: back into the same two bytes. -/
def smpEncode (i : Nat) (p : Sample) (s : State) : Except Fault State :=
  match memWrite s.buf i [highByte p, lowByte p] with
  | .ok m => .ok (setBuf m s)
  | .error f => .error f

/-- R99: the chain's run for a sample `v`: normalise, nine stages, rescale. -/
def filterSample (v : Sample) (s : State) : Sample × State :=
  let r := chainApplyAll (smpNorm s.draws v) (useDraws 1 s)
  (smpRescale r.2.draws r.1, useDraws 2 r.2)

/-- R99 SAMPLE(i). -/
def sampleAt (i : Nat) (s : State) : Except Fault State :=
  match smpDecode i s with
  | .error f => .error f
  | .ok v => smpEncode i (filterSample v s).1 (filterSample v s).2

/-- R107: SAMPLE at `n` successive slots from `i`, ascending. -/
def sampleLoop : Nat → Nat → State → Except Fault State
  | 0, _, s => .ok s
  | n + 1, i, s =>
    match sampleAt i s with
    | .error f => .error f
    | .ok s' => sampleLoop n (nextSlot i) s'

end Sys2Proof.Machine
end

