-- ==== Sys2Proof/Machine/Process.lean ====
section
/-! DEFINITION. PROCESS (spec/45_process.md R100 to R112). -/

namespace Sys2Proof.Machine

/-- R109, step 6: the answer of HostWrite is the result word, whatever it is. -/
def processWrite (s : State) : Out := callHost .write writeAnswer s fun w s => finish w s

/-- R41, R109, step 6: all 128 bytes of the buffer go to the host, `buf[0]` first. -/
def sendBlock (s : State) : Out :=
  orFault (memRead s.buf 0 Config.bufSize) fun b => processWrite { s with blocks := s.blocks ++ [b] }

/-- R40, R103, steps 2, 4: the bytes read are deposited from address 0, a short read marks the end of
stream, the bytes are counted. -/
def acceptRead (r : Word) (m : Memory) (s : State) : State :=
  countBytes r (noteShortRead r (setBuf m s))

/-- R101, steps 3 to 6, with the answer `(r, data)` of HostRead. -/
def processData (r : Word) (data : List Byte) (s : State) : Out :=
  if readAnswerWf r data then
    if r.toInt ≤ 0 then finish r s
    else
      orFault (memWrite s.buf 0 data) fun m =>
        orFault (sampleLoop (samplesIn r) 0 (acceptRead r m s)) sendBlock
  else .refused .readContract

/-- R103, step 2: one request for up to 128 bytes. -/
def processRead (s : State) : Out :=
  callHost .read readAnswer s fun a s => processData a.1 a.2 s

/-- R100, R101 PROCESS; step 1 is the end-of-stream shortcut of R102. -/
def execProcess (s : State) : Out :=
  issue .process s fun s => if s.eos then finish 0#32 s else processRead s

end Sys2Proof.Machine
end

