-- ==== Sys2Proof/Machine/Dispatch.lean ====
section
/-! DEFINITION. One arm per command. -/

namespace Sys2Proof.Machine

def exec (i : Instr) (s : State) : Host.Outcome State Fault Refusal :=
  match i with
  | .configure rate ch => Sys2Proof.Machine.execConfigure rate ch s
  | .openStream => Sys2Proof.Machine.execOpenStream s
  | .process => Sys2Proof.Machine.execProcess s
  | .closeStream => Sys2Proof.Machine.execCloseStream s
  | .destroy => Sys2Proof.Machine.execDestroy s

end Sys2Proof.Machine
end

