-- ==== Sys2Proof/Machine/Fetch.lean ====
section
/-! DEFINITION. What the step does with the host's next input: a command word is decoded and run, RESET is applied, an
answer resumes the PROCESS that waits for it (spec/20_memory.md R46, spec/45_process.md R111, spec/70_reset_and_hazards.md
R130, R135). -/

namespace Sys2Proof.Machine

/-- R57, R63: a command word taken from the port is decoded and executed; a reserved opcode is refused. -/
def runWord (w : CmdWord) (s : State) : Out :=
  match decode w with
  | .ok i => exec i s
  | .error (.reservedOpcode op) => .refused (.reservedOpcode op)

/-- R111: the PROCESS in progress goes on from the host call it waits on. -/
def resume : Call → State → Out
  | .read, s => processRead s
  | .write, s => processWrite s

/-- An answer of the host: it resumes the command that waits, and is refused when none waits (log entry 3). -/
def takeAnswer (s : State) : Out :=
  match s.waiting with
  | some c => resume c s
  | none => .refused .strayAnswer

/-- R44: the host's next input, if it has one. With none the block waits, for a command or an answer, and
nothing changes (R132, U12). -/
def takeInput (s : State) : Out :=
  match s.inputs with
  | [] => .next s
  | .command w :: rest => runWord w { s with inputs := rest }
  | .reset p :: rest => .next (applyReset p { s with inputs := rest })
  | .format hr hc :: rest => .next (setFormatAnswer hr hc { s with inputs := rest })
  | .alloc ok :: rest => .next (setAllocAnswer ok { s with inputs := rest })
  | .read _ _ :: _ => takeAnswer s
  | .write _ :: _ => takeAnswer s

/-- A command word placed so that the very next step takes it: at the head of the host's inputs, with no
command in progress (log entry 13). -/
def placeWord (w : CmdWord) (s : State) : State :=
  { s with inputs := .command w :: s.inputs, waiting := none }

end Sys2Proof.Machine
end

