-- ==== Sys2Proof/Machine/Step.lean ====
section
/-! DEFINITION. One step of the machine: one thing the host does, and all the block does about it. -/

namespace Sys2Proof.Machine

/-- R11, R46: one step. -/
def step (s : State) : Host.Outcome State Fault Refusal := takeInput s

/-- The state with an opcode-table row's word on the command port (log entries 13, 14). -/
def State.withFetchWord (s : State) (nbits w : Nat) : State := placeWord (tableWord nbits w) s

end Sys2Proof.Machine
end

