-- ==== Sys2Proof/Safety.lean ====
section
/-! DEFINITION. The terms the claims use: the invariant that rules out states no run reaches, the host's duties
(spec/20_memory.md R44), correct rounding (spec/40_biquad.md R68), and a run of samples through the chain. -/

namespace Sys2Proof.Safety

open Sys2Proof.Machine

/-! ### The invariant -/

/-- R21: both fields of `fmt` hold a member of their enumeration. -/
def FormatValid (s : State) : Prop := fmtVRate s.fmtRate = true ∧ fmtVCh s.fmtCh = true

/-- R101, R129: only a PROCESS waits, in an opened element. -/
def WaitingFits (s : State) : Prop :=
  match s.waiting with
  | none => True
  | some .read => s.life = .opened ∧ s.eos = false
  | some .write => s.life = .opened

/-- What every run keeps true. -/
structure Inv (s : State) : Prop where
  /-- R33: the buffer is in canonical form, within addresses 0 to 127. -/
  bufWf : Memory.wf s.buf = true
  /-- R25: the buffer is valid exactly while the element is opened. -/
  bufOpen : s.life ≠ .destroyed → (s.bufValid = true ↔ s.life = .opened)
  /-- R33, R34: the buffer holds a byte at every address 0 to 127, valid or not. -/
  bufHeld : Memory.allocated s.buf = true
  /-- R21: whenever the element is opened both fields of `fmt` are members. -/
  fmtOpen : s.life = .opened → FormatValid s
  /-- R16, R24, R26, R85(d): before the first successful OPEN nothing has been filtered or counted. -/
  quiet : s.life = .created ∨ s.life = .failed →
    s.eos = false ∧ s.cnt = 0#32 ∧ s.z = Vector.replicate 9 silentHistory
  /-- R83: the command in progress, if any. -/
  waitingFits : WaitingFits s
  /-- R109: every block handed to HostWrite has 128 bytes. -/
  blocksFull : ∀ b ∈ s.blocks, b.length = Config.bufSize

/-! ### The host's duties -/

/-- R44: the host's next inputs answer a HostWrite call, or leave it unanswered. -/
def writeFits : List HostInput → Bool
  | [] => true
  | x :: _ => (writeAnswer x).isSome || !isAnswer x

/-- R44: the same for HostRead, with the duties on its answer. -/
def readFits : List HostInput → Bool
  | [] => true
  | .read r data :: rest => readAnswerWf r data && (decide (r.toInt ≤ 0) || writeFits rest)
  | x :: _ => !isAnswer x

/-- R44: the host answers the call in progress, and answers no call that was not made. -/
def answersFit : Option Call → List HostInput → Bool
  | none, _ => false
  | some .read, xs => readFits xs
  | some .write, xs => writeFits xs

/-- R44, R84, R135: the command is issued with no other in progress and is legal, and the answers that
follow it fit its calls. -/
def commandFits (i : Instr) (s : State) (rest : List HostInput) : Bool :=
  s.waiting.isNone && legal i s.life &&
    match i with
    | .openStream => true
    | .process => s.eos || readFits rest
    | .configure _ _ => true
    | .closeStream => true
    | .destroy => true

/-- R44: the host keeps its duties in what the next step takes from it. -/
def dutiesKept (s : State) : Bool :=
  match s.inputs with
  | [] => true
  | .reset _ :: _ => true
  | .command w :: rest =>
    match decode w with
    | .ok i => commandFits i s rest
    | .error _ => false
  | .format _ _ :: _ => true
  | .alloc _ :: _ => true
  | x :: xs => answersFit s.waiting (x :: xs)

/-! ### Correct rounding -/

/-- R68: `r` is a binary32 value nearest `num / den` units of 2^-149, and where another one is as near, the
last bit of `r` is 0. -/
def NearestEven (num : Int) (den : Nat) (r : F32) : Prop :=
  ∀ c : F32, isFinite c = true →
    (value r * den - num).natAbs ≤ (value c * den - num).natAbs ∧
    (value c ≠ value r → (value r * den - num).natAbs = (value c * den - num).natAbs →
      r.getLsbD 0 = false)

/-- R68: a result `r` for the exact value `num / den` units: the infinity of its sign from halfway past the
largest finite number, 2^128 - 2^104, on, and otherwise finite and nearest. -/
def RoundsTo (num : Int) (den : Nat) (r : F32) : Prop :=
  if (2 ^ 277 - 2 ^ 252) * den ≤ num.natAbs then
    isInf r = true ∧ (fSign r = true ↔ num < 0)
  else isFinite r = true ∧ NearestEven num den r

/-! ### Samples through a stage and through the chain -/

/-- R15: a stage's outputs for successive inputs, and the state after them. -/
def runStage (k : Fin 9) : List F32 → State → List F32 × State
  | [], s => ([], s)
  | x :: xs, s =>
    let r := bqApply k x s
    (r.1 :: (runStage k xs r.2).1, (runStage k xs r.2).2)

/-- R99, with R91, R92 and R55 written out and no buffer: the sample as a binary32 value, divided by
`32767.0f`, through the chain, multiplied by `32767.0f`, truncated; and the state the chain leaves. The draws
are those of log entry 5. -/
def filterOne (v : Sample) (s : State) : Sample × State :=
  let x := fdiv s.draws (i2f v) 0x46FFFE00#32
  let r := chainApplyAll x { s with draws := s.draws + 1 }
  let q := fmul r.2.draws r.1 0x46FFFE00#32
  (f2i (r.2.draws + 1) q, { r.2 with draws := r.2.draws + 2 })

/-- R107: the samples of a block through the chain, one after another, with no buffer: each sees the
history the one before it left. -/
def filterAll : List Sample → State → List Sample × State
  | [], s => ([], s)
  | v :: vs, s =>
    let r := filterOne v s
    (r.1 :: (filterAll vs r.2).1, (filterAll vs r.2).2)

/-- R53: the samples of a list of bytes, high byte first; a last odd byte is no sample (R37). -/
def samplesOf : List Byte → List Sample
  | hi :: lo :: bs => (hi ++ lo) :: samplesOf bs
  | _ => []

/-- R53: the bytes of a list of samples, bits 15:8 first. -/
def bytesOf : List Sample → List Byte
  | [] => []
  | p :: ps => p.extractLsb' 8 8 :: p.extractLsb' 0 8 :: bytesOf ps

end Sys2Proof.Safety
end

