-- ==== Sys2Proof/Certificates/Slice0/Obligations.lean ====
section
/-! DEFINITION. The statements for the provers, from the numbered rules of spec/. -/

open Sys2Proof Sys2Proof.Machine Sys2Proof.Safety

/-! ### Encoding and the command port -/

/-- R57 to R59, the words of V47, V51, V54, V61, V63 of spec/95_test_vectors.md and a PROCESS with its ignored
bits set. The command word is the spec's own construction (D4). -/
def Obligations.WordsOfTheSpecDecode : Prop :=
  decode 0x00000AC4400000002#67 = .ok (.configure 44100#32 2#32) ∧
  decode 0x0FFFFFFFF00000001#67 = .ok (.configure (BitVec.ofInt 32 (-1)) 1#32) ∧
  decode 0x10000000000000000#67 = .ok .openStream ∧
  decode 0x2FFFFFFFFFFFFFFFF#67 = .ok .process ∧
  decode 0x30000000000000000#67 = .ok .closeStream ∧
  decode 0x40000000000000000#67 = .ok .destroy

/-- R57 to R59 (D4): decoding the word of any command gives it back, with every operand; and a word that
decodes to a command has that command's opcode bits, and for CONFIGURE every one of its bits. -/
def Obligations.DecodeAndEncodeAgree : Prop :=
  (∀ i : Instr, decode (encode i) = .ok i) ∧
  (∀ (w : CmdWord) (i : Instr), decode w = .ok i →
    encode i &&& opcodeMask = w &&& opcodeMask ∧ (∀ r c, i = .configure r c → encode i = w))

/-- R57 to R59, R63 (D4, D26): the three bits 66:64 alone select the command, or reject the word; the
operands of CONFIGURE are bits 63:32 and 31:0. -/
def Obligations.OpcodeAloneSelectsTheCommand : Prop :=
  ∀ w : CmdWord,
    (w.toNat / 2 ^ 64 = 0 → decode w =
      .ok (.configure (BitVec.ofNat 32 (w.toNat / 2 ^ 32)) (BitVec.ofNat 32 w.toNat))) ∧
    (w.toNat / 2 ^ 64 = 1 → decode w = .ok .openStream) ∧
    (w.toNat / 2 ^ 64 = 2 → decode w = .ok .process) ∧
    (w.toNat / 2 ^ 64 = 3 → decode w = .ok .closeStream) ∧
    (w.toNat / 2 ^ 64 = 4 → decode w = .ok .destroy) ∧
    (5 ≤ w.toNat / 2 ^ 64 → decode w = .error (.reservedOpcode (BitVec.ofNat 3 (w.toNat / 2 ^ 64))))

/-- R46, R57: the step takes the command word the host has issued off the port and executes the command it
decodes to; a word placed by `withFetchWord` is the one the next step runs (log entries 1, 13). -/
def Obligations.StepRunsTheDecodedCommand : Prop :=
  (∀ (s : State) (w : CmdWord) (rest : List HostInput) (i : Instr),
    s.inputs = .command w :: rest → decode w = .ok i → step s = exec i { s with inputs := rest }) ∧
  (∀ (s : State) (nbits w : Nat) (i : Instr), decodeTableWord nbits w = some i →
    step (s.withFetchWord nbits w) = exec i { s with waiting := none })

/-- R63, U1 (D26): a command word with opcode 5, 6 or 7 is refused, in every state. That the refusal has this
name also while a command is in progress, where R135 refuses too, is the model's choice (log entry 18). -/
def Obligations.ReservedOpcodesAreRefused : Prop :=
  ∀ (s : State) (w : CmdWord) (rest : List HostInput), s.inputs = .command w :: rest →
    5 ≤ w.toNat / 2 ^ 64 → step s = .refused (.reservedOpcode (BitVec.ofNat 3 (w.toNat / 2 ^ 64)))

/-- R44, R132, U12: while the host does nothing, the block waits and nothing changes, whether it waits for a
command or for an answer (the form of the wait is the model's, log entry 2). R42, R43: that the host settles
what it will answer OPEN has no effect on the block's state by itself (log entry 20). -/
def Obligations.NothingChangesWhileTheHostDoesNothing : Prop :=
  (∀ s : State, s.inputs = [] → step s = .next s) ∧
  (∀ (s : State) (hr hc : Word) (rest : List HostInput), s.inputs = .format hr hc :: rest →
    step s = .next { s with
      inputs := rest, answers := { rate := hr, ch := hc, alloc := s.answers.alloc } }) ∧
  (∀ (s : State) (ok : Bool) (rest : List HostInput), s.inputs = .alloc ok :: rest →
    step s = .next { s with
      inputs := rest, answers := { rate := s.answers.rate, ch := s.answers.ch, alloc := ok } })

/-! ### RESET -/

/-- R130, R131 (D2): RESET in any state, a command in progress or not, gives every register its reset value,
holds no command in progress and delivers no result. The buffer's bytes are unspecified: each holds a free
value, whose draw is the model's (log entry 7); that the host's streams stay is log entry 9. -/
def Obligations.ResetGivesEveryRegisterItsValue : Prop :=
  ∀ (s : State) (p : ResetParams) (rest : List HostInput), s.inputs = .reset p :: rest →
    ∃ t, step s = .next t ∧
      (∀ k : Fin 9, readHist t k =
        { inZ1 := 0x00000000#32, inZ2 := 0x00000000#32, outZ1 := 0x00000000#32, outZ2 := 0x00000000#32 }) ∧
      t.coef = p.coef ∧ t.fmtRate = p.initRate ∧ t.fmtCh = p.initCh ∧ t.life = .created ∧
      t.eos = false ∧ t.bufValid = false ∧
      (∀ a, readByte t.buf a = if a < 128 then some (Config.unspecifiedByte s.draws a) else none) ∧
      t.cnt = 0#32 ∧
      t.cfg = p.cfg ∧ t.waiting = none ∧
      t.results = s.results ∧ t.blocks = s.blocks ∧ t.inputs = rest ∧ t.answers = s.answers

/-- R8, R22, R23, R24, R25, R26, R27: the state after reset with the documented defaults (48000 Hz, mono,
8 KiB, 4 KiB, core 0, priority 5) and the open table COEF. -/
def Obligations.ResetStateHasTheDocumentedDefaults : Prop :=
  State.reset.fmtRate = 48000#32 ∧ State.reset.fmtCh = 1#32 ∧
  State.reset.cfg =
    { outBufSize := 8192#32, stackSize := 4096#32, coreAffinity := 0#32, priority := 5#32 } ∧
  State.reset.coef = Config.coefTable ∧ State.reset.life = .created ∧ State.reset.eos = false ∧
  State.reset.bufValid = false ∧ State.reset.cnt = 0#32 ∧
  (∀ k : Fin 9, readHist State.reset k =
    { inZ1 := 0#32, inZ2 := 0#32, outZ1 := 0#32, outZ2 := 0#32 })

/-! ### The whole machine -/

/-- R21, R25, R33, R34, R83, R85(d), R109: the invariant holds at reset. -/
def Obligations.ResetStateMeetsTheInvariant : Prop := Inv State.reset

/-- R21, R25, R33, R34, R83, R85(d), R109: every step keeps the invariant, from every state that has it and
whatever the host does. -/
def Obligations.EveryStepKeepsTheInvariant : Prop :=
  ∀ s t : State, Inv s → step s = .next t → Inv t

/-- R35: no rule calls a memory primitive outside 0 to 127, and the block treats nothing as a fault (spec/93
section 1): no step faults. -/
def Obligations.NoStepFaults : Prop :=
  ∀ s : State, Inv s → ∀ f, step s ≠ .fault f

/-- R44, R84, R111, R135: the step answers a next state exactly when the host keeps its duties: the block
refuses nothing a host may do, and goes on after nothing it must not do. That an answer to no call is
refused is the model's choice (log entry 3). -/
def Obligations.StepGoesOnExactlyWhenTheHostKeepsItsDuties : Prop :=
  ∀ s : State, Inv s → ((∃ t, step s = .next t) ↔ dutiesKept s = true)

/-- R83: the lifecycle follows the arrows of its table and no others. -/
def Obligations.LifecycleFollowsItsArrows : Prop :=
  ∀ s t : State, Inv s → step s = .next t →
    t.life = s.life ∨
    ((∃ p rest, s.inputs = .reset p :: rest) ∧ t.life = .created) ∨
    (s.life = .created ∧ (t.life = .opened ∨ t.life = .failed)) ∨
    (s.life = .opened ∧ t.life = .closed) ∨
    (s.life = .failed ∧ (t.life = .closed ∨ t.life = .destroyed)) ∨
    (s.life = .closed ∧ t.life = .destroyed)

/-- R19: no step but RESET writes a coefficient; after DESTROY, and only then, its value is unspecified
(R32). -/
def Obligations.CoefficientsAreNeverWritten : Prop :=
  ∀ s t : State, step s = .next t → (∀ p rest, s.inputs ≠ .reset p :: rest) →
    (t.life = .destroyed → s.life = .destroyed) → t.coef = s.coef

/-- R27 (D30): no step but RESET writes a pass-through register; after DESTROY, and only then, its value is
unspecified (R32). -/
def Obligations.PassThroughRegistersAreNeverWritten : Prop :=
  ∀ s t : State, step s = .next t → (∀ p rest, s.inputs ≠ .reset p :: rest) →
    (t.life = .destroyed → s.life = .destroyed) → t.cfg = s.cfg

/-- R16, R17, R77: outside RESET and DESTROY a history register changes only in an opened element that has
not met the end of its stream, and only in a step that hands one block of 128 bytes to HostWrite. -/
def Obligations.HistoryMovesOnlyWithABlock : Prop :=
  ∀ s t : State, Inv s → step s = .next t → (∀ p rest, s.inputs ≠ .reset p :: rest) →
    (t.life = .destroyed → s.life = .destroyed) → t.z ≠ s.z →
    s.life = .opened ∧ t.life = .opened ∧ s.eos = false ∧
      ∃ b, t.blocks = s.blocks ++ [b] ∧ b.length = 128

/-- R139, R24: once set, the end of stream stays set while the element is opened. -/
def Obligations.EndOfStreamIsSticky : Prop :=
  ∀ s t : State, Inv s → step s = .next t → s.life = .opened → t.life = .opened →
    s.eos = true → t.eos = true ∧ t.blocks = s.blocks

/-- R47, R61, R109: a step delivers at most one result word and hands at most one block of 128 bytes to
HostWrite, and takes back none. -/
def Obligations.AtMostOneResultAndOneBlockAStep : Prop :=
  ∀ s t : State, step s = .next t →
    (t.results = s.results ∨ ∃ w, t.results = s.results ++ [w]) ∧
    (t.blocks = s.blocks ∨ ∃ b, t.blocks = s.blocks ++ [b] ∧ b.length = 128)

/-- R26, R125: nothing the host can see depends on `cnt`: a run from a state with another value of it
delivers the same results and blocks. -/
def Obligations.NothingDependsOnTheByteCounter : Prop :=
  ∀ (s : State) (c : Word),
    (∀ t, step s = .next t → ∃ c', step { s with cnt := c } = .next { t with cnt := c' }) ∧
    (∀ r, step s = .refused r → step { s with cnt := c } = .refused r)

/-! ### Which command is legal when -/

/-- R84, U2 (D25): with no other command in progress, a command is refused as not legal exactly in the
lifecycle states where the table says "no". -/
def Obligations.CommandsAreLegalAsTheTableSays : Prop :=
  ∀ s : State, s.waiting = none →
    (∀ r c, exec (.configure r c) s = .refused (.notLegal s.life) ↔ s.life = .destroyed) ∧
    (exec .openStream s = .refused (.notLegal s.life) ↔ s.life ≠ .created) ∧
    (exec .process s = .refused (.notLegal s.life) ↔ s.life ≠ .opened) ∧
    (exec .closeStream s = .refused (.notLegal s.life) ↔ s.life ≠ .opened ∧ s.life ≠ .failed) ∧
    (exec .destroy s = .refused (.notLegal s.life) ↔ s.life ≠ .closed ∧ s.life ≠ .failed)

/-- R135, U3 (D32): a command issued before the previous one has delivered its result is refused. That the
refusal has this name also where the lifecycle state forbids the command is the model's choice (log entry
18). -/
def Obligations.OverlappingCommandsAreRefused : Prop :=
  ∀ (i : Instr) (s : State), s.waiting ≠ none → exec i s = .refused .overlapping

/-- R46, R111: a command (PROCESS, R129) that had to wait for the host goes on, when the answer comes, exactly as if the
answer had been there from the start. -/
def Obligations.CommandsGoOnWhereTheyWaited : Prop :=
  ∀ (i : Instr) (s t : State) (pre rest : List HostInput) (x : HostInput), s.waiting = none →
    exec i { s with inputs := pre } = .next t → t.waiting ≠ none → t.inputs = [] → isAnswer x = true →
    step { t with inputs := x :: rest } = exec i { s with inputs := pre ++ x :: rest }

/-! ### Format validation and CONFIGURE -/

/-- R78, R79: the two predicates, on every `Int`. -/
def Obligations.RateAndChannelPredicates : Prop :=
  ∀ v : Word,
    (fmtVRate v = true ↔ v.toInt = 11025 ∨ v.toInt = 22050 ∨ v.toInt = 44100 ∨ v.toInt = 48000) ∧
    (fmtVCh v = true ↔ v.toInt = 1 ∨ v.toInt = 2)

/-- R80: CONFIGURE in every state where it is legal: the identity shortcut first, then validation of both
fields, then both are replaced; nothing else changes but the result delivered. -/
def Obligations.ConfigureOutcomes : Prop :=
  ∀ (s : State) (rate ch : Word), s.waiting = none → s.life ≠ .destroyed →
    exec (.configure rate ch) s = .next
      (if rate = s.fmtRate ∧ ch = s.fmtCh then { s with results := s.results ++ [Config.ok] }
       else if (rate = 11025#32 ∨ rate = 22050#32 ∨ rate = 44100#32 ∨ rate = 48000#32) ∧
           (ch = 1#32 ∨ ch = 2#32) then
         { s with fmtRate := rate, fmtCh := ch, results := s.results ++ [Config.ok] }
       else { s with results := s.results ++ [Config.errInvalidArg] })

/-! ### OPEN, CLOSE, DESTROY -/

/-- R85, R42, R43 (a pair with one value zero is no override: D20; how the answers stand ready: log entry 20):
OPEN with a valid pair and a buffer to be had completes with OK, at once: the pair is stored, the end of stream cleared, the buffer valid and all zero, the
element opened; nothing else changes. -/
def Obligations.OpenSucceeds : Prop :=
  ∀ (s : State) (rate ch : Word), s.waiting = none → s.life = .created →
    rate = (if s.answers.rate ≠ 0#32 ∧ s.answers.ch ≠ 0#32 then s.answers.rate else s.fmtRate) →
    ch = (if s.answers.rate ≠ 0#32 ∧ s.answers.ch ≠ 0#32 then s.answers.ch else s.fmtCh) →
    fmtVRate rate = true → fmtVCh ch = true → s.answers.alloc = true →
    ∃ t, exec .openStream s = .next t ∧
      t.fmtRate = rate ∧ t.fmtCh = ch ∧ t.eos = false ∧ t.bufValid = true ∧ t.life = .opened ∧
      (∀ a, a < 128 → readByte t.buf a = some 0#8) ∧
      (∀ a, 128 ≤ a → readByte t.buf a = readByte s.buf a) ∧
      (Memory.wf s.buf = true → Memory.wf t.buf = true) ∧
      t.results = s.results ++ [Config.ok] ∧
      t.z = s.z ∧ t.coef = s.coef ∧ t.cnt = s.cnt ∧ t.cfg = s.cfg ∧ t.blocks = s.blocks ∧
      t.draws = s.draws ∧ t.waiting = none ∧ t.inputs = s.inputs ∧ t.answers = s.answers

/-- R85, R86, R113, R116, R120 (D21): a failing OPEN changes the lifecycle state and delivers its error,
nothing else, at once; an invalid pair is reported whatever HostAlloc would answer (how the answers stand
ready: log entry 20). -/
def Obligations.FailingOpenWritesOnlyTheLifecycle : Prop :=
  ∀ (s : State) (rate ch : Word), s.waiting = none → s.life = .created →
    rate = (if s.answers.rate ≠ 0#32 ∧ s.answers.ch ≠ 0#32 then s.answers.rate else s.fmtRate) →
    ch = (if s.answers.rate ≠ 0#32 ∧ s.answers.ch ≠ 0#32 then s.answers.ch else s.fmtCh) →
    ((fmtVRate rate = false ∨ fmtVCh ch = false) →
      exec .openStream s = .next { s with
        life := .failed, results := s.results ++ [Config.errInvalidArg] }) ∧
    (fmtVRate rate = true → fmtVCh ch = true → s.answers.alloc = false →
      exec .openStream s = .next { s with
        life := .failed, results := s.results ++ [Config.errNoMem] })

/-- R87, R25 (D23): CLOSE from Opened or Failed completes with OK, releases the buffer if it was valid, and
touches no other register. The bytes of a released buffer are unspecified: each holds a free value, whose
draw is the model's (log entry 7). -/
def Obligations.CloseReleasesTheBuffer : Prop :=
  ∀ s : State, s.waiting = none → (s.life = .opened ∨ s.life = .failed) →
    ∃ t, exec .closeStream s = .next t ∧
      t.life = .closed ∧ t.bufValid = false ∧ t.results = s.results ++ [Config.ok] ∧
      (s.bufValid = true → t.draws = s.draws + 1 ∧
        ∀ a, readByte t.buf a = if a < 128 then some (Config.unspecifiedByte s.draws a) else none) ∧
      (s.bufValid = false → t.buf = s.buf ∧ t.draws = s.draws) ∧
      t.z = s.z ∧ t.coef = s.coef ∧ t.fmtRate = s.fmtRate ∧ t.fmtCh = s.fmtCh ∧ t.eos = s.eos ∧
      t.cnt = s.cnt ∧ t.cfg = s.cfg ∧ t.blocks = s.blocks ∧ t.inputs = s.inputs ∧
      t.answers = s.answers ∧ t.waiting = none

/-- R88: DESTROY from Closed or Failed completes with OK and leaves the element destroyed, where no command
is legal; of the registers nothing else is said. The host's side is as it was. -/
def Obligations.DestroyGivesUpTheInstance : Prop :=
  ∀ s : State, s.waiting = none → (s.life = .closed ∨ s.life = .failed) →
    ∃ t, exec .destroy s = .next t ∧
      t.life = .destroyed ∧ t.results = s.results ++ [Config.ok] ∧
      t.blocks = s.blocks ∧ t.inputs = s.inputs ∧ t.answers = s.answers ∧
      ∀ i, exec i t = .refused (.notLegal .destroyed)

/-! ### PROCESS -/

/-- R102 (D16): at the end of the stream PROCESS delivers 0 and changes nothing, with no call to the host. -/
def Obligations.ProcessAfterTheEndOfStream : Prop :=
  ∀ s : State, s.waiting = none → s.life = .opened → s.eos = true →
    exec .process s = .next { s with results := s.results ++ [0#32] }

/-- R104, R117 (D17): a HostRead answer that is not positive is the result, and nothing else changes. -/
def Obligations.ProcessForwardsANonPositiveRead : Prop :=
  ∀ (s : State) (r : Word) (rest : List HostInput), s.waiting = none → s.life = .opened → s.eos = false →
    s.inputs = .read r [] :: rest → r.toInt ≤ 0 →
    exec .process s = .next { s with inputs := rest, results := s.results ++ [r] }

/-- R103, R105, R106, R108, R109: a PROCESS that reads `r` bytes, 1 to 128, completes with the answer of
HostWrite, whatever it is; the whole buffer was handed over; a short read ended the stream; the bytes
beyond the read, and the last one of an odd count, are as they were and as they were delivered; no other
register changes but the history. -/
def Obligations.ProcessReadsFiltersAndWrites : Prop :=
  ∀ (s : State) (r w : Word) (data : List Byte) (rest : List HostInput), s.waiting = none →
    s.life = .opened → s.eos = false → Memory.allocated s.buf = true →
    s.inputs = .read r data :: .write w :: rest → 1 ≤ r.toInt → r.toInt ≤ 128 →
    data.length = r.toNat →
    ∃ t b, exec .process s = .next t ∧
      t.results = s.results ++ [w] ∧ t.blocks = s.blocks ++ [b] ∧ b.length = 128 ∧
      (∀ a (h : a < b.length), readByte t.buf a = some b[a]) ∧
      (t.eos = true ↔ r.toInt < 128) ∧ t.cnt = s.cnt + r ∧
      (∀ a, r.toNat ≤ a → readByte t.buf a = readByte s.buf a) ∧
      (r.toNat % 2 = 1 → readByte t.buf (r.toNat - 1) = data[r.toNat - 1]?) ∧
      (Memory.wf s.buf = true → Memory.wf t.buf = true) ∧
      t.coef = s.coef ∧ t.fmtRate = s.fmtRate ∧ t.fmtCh = s.fmtCh ∧ t.life = .opened ∧
      t.bufValid = s.bufValid ∧ t.cfg = s.cfg ∧ t.waiting = none ∧ t.inputs = rest ∧ t.answers = s.answers

/-- R36, R99, R107, R108: the buffer in which PROCESS works sample by sample, in place, gives the block
the samples would give one after another with no buffer at all, each normalised, passed through the chain
and rescaled as R99, R91, R92 and R55 say, and each seeing the history the one before it left. Which draws an
operation takes is log entry 5. -/
def Obligations.ProcessIsTheStreamFilter : Prop :=
  ∀ (s : State) (r w : Word) (data : List Byte) (rest : List HostInput), s.waiting = none →
    s.life = .opened → s.eos = false → Memory.allocated s.buf = true →
    s.inputs = .read r data :: .write w :: rest → 1 ≤ r.toInt → r.toInt ≤ 128 →
    data.length = r.toNat →
    ∃ t b, exec .process s = .next t ∧ t.blocks = s.blocks ++ [b] ∧
      (samplesOf data).length = r.toNat / 2 ∧
      b.take (2 * (r.toNat / 2)) = bytesOf (filterAll (samplesOf data) s).1 ∧
      t.z = (filterAll (samplesOf data) s).2.z ∧ t.draws = (filterAll (samplesOf data) s).2.draws

/-- R110 (D31): PROCESS neither reads nor writes the stream format. -/
def Obligations.ProcessIgnoresTheFormat : Prop :=
  ∀ (s : State) (rate ch : Word),
    (∀ t, exec .process s = .next t →
      exec .process { s with fmtRate := rate, fmtCh := ch } = .next { t with fmtRate := rate, fmtCh := ch }) ∧
    (∀ q, exec .process s = .refused q →
      exec .process { s with fmtRate := rate, fmtCh := ch } = .refused q)

/-- R40, R44, R112, U4 (D18): a HostRead answer of more than 128, or with other bytes than it counts, is
refused. -/
def Obligations.BrokenReadsAreRefused : Prop :=
  ∀ (s : State) (r : Word) (data : List Byte) (rest : List HostInput), s.waiting = none →
    s.life = .opened → s.eos = false → s.inputs = .read r data :: rest →
    (128 < r.toInt ∨ data.length ≠ r.toInt.toNat) → exec .process s = .refused .readContract

/-- R111, U9, U12, R103, R109: PROCESS waits at HostRead with nothing changed, and at HostWrite with its
block handed over and no result delivered (the record of the wait is the model's, log entry 2). -/
def Obligations.ProcessWaitsAtItsHostCalls : Prop :=
  ∀ s : State, s.waiting = none → s.life = .opened → s.eos = false →
    (s.inputs = [] → exec .process s = .next { s with waiting := some .read }) ∧
    (∀ r data, Memory.allocated s.buf = true → s.inputs = [.read r data] → 1 ≤ r.toInt →
      readAnswerWf r data = true →
      ∃ t b, exec .process s = .next t ∧ t.waiting = some .write ∧ t.results = s.results ∧
        t.blocks = s.blocks ++ [b] ∧ b.length = 128)

/-- R73, R112, E3 (silence): with finite coefficients and a history of zeros, a full block of zeros goes out
as a block of zeros, and leaves a history of zeros (of either sign). -/
def Obligations.SilenceStaysSilent : Prop :=
  ∀ (s : State) (w : Word) (rest : List HostInput), s.waiting = none → s.life = .opened →
    s.eos = false → Memory.allocated s.buf = true →
    s.inputs = .read 128#32 (List.replicate 128 0#8) :: .write w :: rest →
    (∀ k : Fin 9, isFinite (readCoef s k).a0 = true ∧ isFinite (readCoef s k).a1 = true ∧
      isFinite (readCoef s k).a2 = true ∧ isFinite (readCoef s k).b1 = true ∧
      isFinite (readCoef s k).b2 = true) →
    (∀ k : Fin 9, isZero (readHist s k).inZ1 = true ∧ isZero (readHist s k).inZ2 = true ∧
      isZero (readHist s k).outZ1 = true ∧ isZero (readHist s k).outZ2 = true) →
    ∃ t, exec .process s = .next t ∧ t.blocks = s.blocks ++ [List.replicate 128 0#8] ∧
      ∀ k : Fin 9, isZero (readHist t k).inZ1 = true ∧ isZero (readHist t k).inZ2 = true ∧
        isZero (readHist t k).outZ1 = true ∧ isZero (readHist t k).outZ2 = true

/-! ### The stage and the chain -/

/-- R66: one step of stage `k`: the output from the old history, the four history writes, no other register.
The order of the nine roundings is R67's (D9); the draws only choose a NaN (R69). -/
def Obligations.StageComputesItsFormula : Prop :=
  ∀ (k : Fin 9) (x : F32) (s : State),
    ∃ d : Fin 9 → Nat,
      (bqApply k x s).1 =
        fsub (d 8) (fsub (d 7) (fadd (d 6) (fadd (d 5)
          (fmul (d 0) (readCoef s k).a0 x) (fmul (d 1) (readCoef s k).a1 (readHist s k).inZ1))
          (fmul (d 2) (readCoef s k).a2 (readHist s k).inZ2))
          (fmul (d 3) (readCoef s k).b1 (readHist s k).outZ1))
          (fmul (d 4) (readCoef s k).b2 (readHist s k).outZ2) ∧
      readHist (bqApply k x s).2 k =
        { inZ1 := x, inZ2 := (readHist s k).inZ1,
          outZ1 := (bqApply k x s).1, outZ2 := (readHist s k).outZ1 } ∧
      (∀ j, j ≠ k → readHist (bqApply k x s).2 j = readHist s j) ∧
      (bqApply k x s).2 = { s with z := (bqApply k x s).2.z, draws := (bqApply k x s).2.draws }

/-- R66 (determinism), E2: equal coefficients, history and input give the equal output, apart from the
choice of NaN where the output is a NaN. -/
def Obligations.StageIsDeterministicUpToNaN : Prop :=
  ∀ (k : Fin 9) (x : F32) (s s' : State), readCoef s' k = readCoef s k → readHist s' k = readHist s k →
    isNaN (bqApply k x s').1 = isNaN (bqApply k x s).1 ∧
    (isNaN (bqApply k x s).1 = false → (bqApply k x s').1 = (bqApply k x s).1)

/-- R15: after any inputs the history holds the two most recent inputs and the two most recent outputs, the
registers' old contents standing before them. -/
def Obligations.HistoryHoldsTheLastTwo : Prop :=
  ∀ (k : Fin 9) (xs : List F32) (s : State),
    (runStage k xs s).1.length = xs.length ∧
    some (readHist (runStage k xs s).2 k).inZ1 =
      (xs.reverse ++ [(readHist s k).inZ1, (readHist s k).inZ2])[0]? ∧
    some (readHist (runStage k xs s).2 k).inZ2 =
      (xs.reverse ++ [(readHist s k).inZ1, (readHist s k).inZ2])[1]? ∧
    some (readHist (runStage k xs s).2 k).outZ1 =
      ((runStage k xs s).1.reverse ++ [(readHist s k).outZ1, (readHist s k).outZ2])[0]? ∧
    some (readHist (runStage k xs s).2 k).outZ2 =
      ((runStage k xs s).1.reverse ++ [(readHist s k).outZ1, (readHist s k).outZ2])[1]?

/-- R75, R77: the chain passes the sample through stages 0 to 8, each output the next stage's input, and
every stage makes exactly one step, from its own history; no other register changes. -/
def Obligations.ChainRunsItsNineStagesInOrder : Prop :=
  ∀ (x : F32) (s : State),
    ∃ (v : Nat → F32) (σ : Nat → State),
      v 0 = x ∧ σ 0 = s ∧
      (∀ k : Fin 9, bqApply k (v k.val) (σ k.val) = (v (k.val + 1), σ (k.val + 1))) ∧
      chainApplyAll x s = (v 9, σ 9) ∧
      (∀ k : Fin 9, readHist (chainApplyAll x s).2 k =
        { inZ1 := v k.val, inZ2 := (readHist s k).inZ1,
          outZ1 := v (k.val + 1), outZ2 := (readHist s k).outZ1 }) ∧
      (chainApplyAll x s).2 =
        { s with z := (chainApplyAll x s).2.z, draws := (chainApplyAll x s).2.draws }

/-- R66(c), R69, R140: a NaN in a stage's output history makes every later output of that stage a NaN, and
every output of the chain with it. -/
def Obligations.NaNNeverLeavesAStage : Prop :=
  ∀ (k : Fin 9) (x : F32) (s : State), isNaN (readHist s k).outZ1 = true →
    isNaN (bqApply k x s).1 = true ∧ isNaN (readHist (bqApply k x s).2 k).outZ1 = true ∧
    isNaN (chainApplyAll x s).1 = true ∧ isNaN (readHist (chainApplyAll x s).2 k).outZ1 = true

/-- R73 (silence): a zero through a stage with zero history and finite coefficients is a zero, of either
sign, and the stage's four history registers are zeros afterwards. -/
def Obligations.SilentStage : Prop :=
  ∀ (k : Fin 9) (x : F32) (s : State),
    isFinite (readCoef s k).a0 = true → isFinite (readCoef s k).a1 = true →
    isFinite (readCoef s k).a2 = true → isFinite (readCoef s k).b1 = true →
    isFinite (readCoef s k).b2 = true →
    isZero (readHist s k).inZ1 = true → isZero (readHist s k).inZ2 = true →
    isZero (readHist s k).outZ1 = true → isZero (readHist s k).outZ2 = true → isZero x = true →
    isZero (bqApply k x s).1 = true ∧
    isZero (readHist (bqApply k x s).2 k).inZ1 = true ∧ isZero (readHist (bqApply k x s).2 k).inZ2 = true ∧
    isZero (readHist (bqApply k x s).2 k).outZ1 = true ∧ isZero (readHist (bqApply k x s).2 k).outZ2 = true

/-- R73 (identity stage): with coefficients (1.0, 0, 0, 0, 0) and a finite history every finite `x` comes
out as it went in, bit for bit but for a negative zero, which comes out as a zero of either sign (log entry
15). -/
def Obligations.IdentityStageKeepsItsInput : Prop :=
  ∀ (d : Nat) (c : Coeffs) (h : History) (x : F32),
    c = { a0 := 0x3F800000#32, a1 := 0#32, a2 := 0#32, b1 := 0#32, b2 := 0#32 } →
    isFinite h.inZ1 = true → isFinite h.inZ2 = true → isFinite h.outZ1 = true →
    isFinite h.outZ2 = true → isFinite x = true →
    (x ≠ 0x80000000#32 → bqOutput d c h x = x) ∧
    (x = 0x80000000#32 → isZero (bqOutput d c h x) = true)

/-! ### The arithmetic -/

/-- R68 (D8): the sum of two finite values is the exact sum rounded to nearest, ties to even, or the infinity
of its sign past the largest finite number. -/
def Obligations.AdditionRoundsToNearestEven : Prop :=
  ∀ (d : Nat) (a b : F32), isFinite a = true → isFinite b = true →
    RoundsTo (value a + value b) 1 (fadd d a b) ∧ RoundsTo (value a - value b) 1 (fsub d a b)

/-- R68, R71 (D8, D10): the product of two finite values is the exact product rounded to nearest, ties to
even, subnormal results included. -/
def Obligations.MultiplicationRoundsToNearestEven : Prop :=
  ∀ (d : Nat) (a b : F32), isFinite a = true → isFinite b = true →
    RoundsTo (value a * value b) (2 ^ 149) (fmul d a b)

/-- R68, R71 (D8, D12): the quotient of two finite values, the divisor not zero, is the exact quotient
rounded to nearest, ties to even. -/
def Obligations.DivisionRoundsToNearestEven : Prop :=
  ∀ (d : Nat) (a b : F32), isFinite a = true → isFinite b = true → isZero b = false →
    RoundsTo ((value b).sign * value a * 2 ^ 149) (units b) (fdiv d a b)

/-- R69 (D11 for which NaN): infinities and NaNs in the four operations the block performs. -/
def Obligations.InfinitiesAndNaNs : Prop :=
  ∀ (d : Nat) (a b : F32),
    (isNaN a = true ∨ isNaN b = true →
      isNaN (fadd d a b) = true ∧ isNaN (fsub d a b) = true ∧ isNaN (fmul d a b) = true ∧
      isNaN (fdiv d a b) = true) ∧
    (isInf a = true → isInf b = true → fSign a ≠ fSign b →
      isNaN (fadd d a b) = true ∧ fsub d a b = a) ∧
    (isInf a = true → isInf b = true → fSign a = fSign b →
      fadd d a b = a ∧ isNaN (fsub d a b) = true) ∧
    (isInf a = true → isFinite b = true → fadd d a b = a ∧ fsub d a b = a) ∧
    (isFinite a = true → isInf b = true → fadd d a b = b ∧
      isInf (fsub d a b) = true ∧ fSign (fsub d a b) = !fSign b) ∧
    (isInf a = true → isNaN b = false → isZero b = false →
      isInf (fmul d a b) = true ∧ isInf (fmul d b a) = true ∧
      fSign (fmul d a b) = (fSign a != fSign b) ∧ fSign (fmul d b a) = (fSign a != fSign b)) ∧
    (isInf a = true → isZero b = true → isNaN (fmul d a b) = true ∧ isNaN (fmul d b a) = true)

/-- R70: the sign of a zero result. -/
def Obligations.SignsOfZeros : Prop :=
  ∀ d : Nat,
    (∀ a b : F32, isFinite a = true → isFinite b = true → (isZero a = true ∨ isZero b = true) →
      isZero (fmul d a b) = true ∧ fSign (fmul d a b) = (fSign a != fSign b)) ∧
    fadd d 0x00000000#32 0x00000000#32 = 0x00000000#32 ∧
    fadd d 0x80000000#32 0x80000000#32 = 0x80000000#32 ∧
    fadd d 0x00000000#32 0x80000000#32 = 0x00000000#32 ∧
    fadd d 0x80000000#32 0x00000000#32 = 0x00000000#32 ∧
    (∀ a : F32, isFinite a = true → isZero a = false → fsub d a a = 0x00000000#32) ∧
    (∀ a b : F32, fsub d a b = fadd d a (fneg b))

/-! ### Sample conversion and the buffer -/

/-- R90, R36, R53: SMP.DECODE reads the high byte at the lower address and the pair as a signed 16-bit
integer. -/
def Obligations.SampleDecodeIsBigEndian : Prop :=
  ∀ (i : Nat) (s : State) (hi lo : Byte), i + 2 ≤ 128 → readByte s.buf i = some hi →
    readByte s.buf (i + 1) = some lo →
    ∃ v, smpDecode i s = .ok v ∧
      v.toInt = if hi.toNat < 128 then 256 * (hi.toNat : Int) + lo.toNat
                else 256 * (hi.toNat : Int) + lo.toNat - 65536

/-- R93: SMP.ENCODE writes bits 15:8 at `i` and bits 7:0 at `i + 1` and no other byte or register, and what
it wrote decodes to the same sample. -/
def Obligations.SampleEncodeWritesItsTwoBytes : Prop :=
  ∀ (i : Nat) (p : Sample) (s : State), i + 2 ≤ 128 →
    ∃ t, smpEncode i p s = .ok t ∧
      (readByte t.buf i).map BitVec.toNat = some (p.toNat / 256) ∧
      (readByte t.buf (i + 1)).map BitVec.toNat = some (p.toNat % 256) ∧
      (∀ a, a ≠ i → a ≠ i + 1 → readByte t.buf a = readByte s.buf a) ∧
      t = { s with buf := t.buf } ∧ smpDecode i t = .ok p

/-- R94: the conversion of a sample to binary32 is exact, and 0 becomes `+0.0`. -/
def Obligations.SampleToFloatIsExact : Prop :=
  (∀ v : Sample, isFinite (i2f v) = true ∧ value (i2f v) = v.toInt * 2 ^ 149) ∧
  i2f 0#16 = 0x00000000#32

/-- R95: in range, the fraction is dropped toward zero. -/
def Obligations.ConversionTruncatesTowardZero : Prop :=
  ∀ (d : Nat) (q : F32), isFinite q = true → -32769 * 2 ^ 149 < value q → value q < 32768 * 2 ^ 149 →
    (f2i d q).toInt = (value q).tdiv (2 ^ 149)

/-- R98: normalising and rescaling gives every one of the 65536 samples back, and the normalised value is
finite (R99). -/
def Obligations.RoundTripIsExact : Prop :=
  ∀ (d d' : Nat) (v : Sample), isFinite (smpNorm d v) = true ∧ smpRescale d' (smpNorm d v) = v

/-- R33: the canonical form of the buffer is one form: buffers that read alike are the same data. -/
def Obligations.BuffersThatReadAlikeAreEqual : Prop :=
  ∀ m m' : Memory, Memory.wf m = true → Memory.wf m' = true →
    (∀ a, readByte m a = readByte m' a) → m = m'

/-! ### A sample of PROCESS -/

/-- R91, R55 (D12): SMP.NORM is one division of the sample's binary32 value by `32767.0f`, pattern
`0x46FFFE00`, which is 32767 exactly: its result is the quotient by 32767 rounded to nearest, ties to even,
and `+0.0` for 0. -/
def Obligations.NormalisationDividesBy32767 : Prop :=
  value 0x46FFFE00#32 = 32767 * 2 ^ 149 ∧
  ∀ d : Nat,
    (∀ v : Sample, smpNorm d v = fdiv d (i2f v) 0x46FFFE00#32 ∧
      RoundsTo (v.toInt * 2 ^ 149) 32767 (smpNorm d v)) ∧
    smpNorm d 0#16 = 0x00000000#32

/-- R92, R55, R95: SMP.RESCALE is one multiplication by `32767.0f`, then the conversion to 16 bits, on every
input (which draws they take is log entry 5): for a finite input the product by 32767 is rounded to nearest,
ties to even, before its fraction is dropped toward zero. -/
def Obligations.RescalingMultipliesBy32767AndTruncates : Prop :=
  ∀ (d : Nat) (y q : F32), q = fmul d y 0x46FFFE00#32 →
    smpRescale d y = f2i (d + 1) q ∧
    (isFinite y = true → RoundsTo (value y * 32767) 1 q) ∧
    (isFinite q = true → -32769 * 2 ^ 149 < value q → value q < 32768 * 2 ^ 149 →
      (smpRescale d y).toInt = (value q).tdiv (2 ^ 149))

/-- R99, with R90 to R93 and R55 written out: SAMPLE decodes two bytes, high byte first, normalises, runs the
chain once, rescales, and writes the result over the same two bytes; the history registers are those the
chain leaves, no other byte and no other register changes. Which draws the operations take is log entry 5. -/
def Obligations.SampleIsNormalisedFilteredAndRescaled : Prop :=
  ∀ (i : Nat) (s : State) (hi lo : Byte), i + 2 ≤ 128 → readByte s.buf i = some hi →
    readByte s.buf (i + 1) = some lo →
    ∃ (t u : State) (x y q : F32) (p : Sample), sampleAt i s = .ok t ∧
      x = fdiv s.draws (i2f (hi ++ lo)) 0x46FFFE00#32 ∧
      chainApplyAll x { s with draws := s.draws + 1 } = (y, u) ∧
      q = fmul u.draws y 0x46FFFE00#32 ∧ p = f2i (u.draws + 1) q ∧
      (readByte t.buf i).map BitVec.toNat = some (p.toNat / 256) ∧
      (readByte t.buf (i + 1)).map BitVec.toNat = some (p.toNat % 256) ∧
      (∀ a, a ≠ i → a ≠ i + 1 → readByte t.buf a = readByte s.buf a) ∧
      t = { s with z := u.z, draws := u.draws + 2, buf := t.buf }

/-! ### The buffer while it is not valid -/

/-- R25, U7 (D38): outside the opened period the contents of the buffer are any values and nothing depends on
them: with other contents the step gives the same next state but for the buffer, the same results and the
same refusals; and where the step opens the element, the same buffer. -/
def Obligations.NothingDependsOnAnInvalidBuffer : Prop :=
  ∀ (s : State) (m : Memory), Inv s → s.life ≠ .opened → Memory.wf m = true →
    (∀ t, step s = .next t → ∃ m', step { s with buf := m } = .next { t with buf := m' } ∧
      (t.life = .opened → m' = t.buf)) ∧
    (∀ r, step s = .refused r → step { s with buf := m } = .refused r)

/-! ### Waiting -/

/-- R129, R111: the only waiting is inside PROCESS, with no result delivered: no other command ends in a state
that waits. OPEN, legal and alone, always completes in the step that runs it, whatever the host answers (how
the answers stand ready: log entry 20). -/
def Obligations.OnlyProcessWaits : Prop :=
  (∀ (i : Instr) (s t : State), exec i s = .next t → t.waiting ≠ none →
    i = .process ∧ s.life = .opened ∧ t.results = s.results) ∧
  (∀ s : State, s.waiting = none → s.life = .created →
    ∃ t w, exec .openStream s = .next t ∧ t.waiting = none ∧ t.results = s.results ++ [w] ∧
      (t.life = .opened ∨ t.life = .failed))
end

