-- ==== Sys2Proof/Laws/State.lean ====
section
/-! SUPPORT. One lemma per field per named update of State, true by unfolding, so that no later proof unfolds a record
update. -/

namespace Sys2Proof.Machine

/-! ### `deliver` -/

@[simp] theorem deliver_z (w : Word) (s : State) : (deliver w s).z = s.z := rfl
@[simp] theorem deliver_coef (w : Word) (s : State) : (deliver w s).coef = s.coef := rfl
@[simp] theorem deliver_fmtRate (w : Word) (s : State) : (deliver w s).fmtRate = s.fmtRate := rfl
@[simp] theorem deliver_fmtCh (w : Word) (s : State) : (deliver w s).fmtCh = s.fmtCh := rfl
@[simp] theorem deliver_life (w : Word) (s : State) : (deliver w s).life = s.life := rfl
@[simp] theorem deliver_eos (w : Word) (s : State) : (deliver w s).eos = s.eos := rfl
@[simp] theorem deliver_bufValid (w : Word) (s : State) : (deliver w s).bufValid = s.bufValid := rfl
@[simp] theorem deliver_buf (w : Word) (s : State) : (deliver w s).buf = s.buf := rfl
@[simp] theorem deliver_cnt (w : Word) (s : State) : (deliver w s).cnt = s.cnt := rfl
@[simp] theorem deliver_cfg (w : Word) (s : State) : (deliver w s).cfg = s.cfg := rfl
@[simp] theorem deliver_waiting (w : Word) (s : State) : (deliver w s).waiting = none := rfl
@[simp] theorem deliver_draws (w : Word) (s : State) : (deliver w s).draws = s.draws := rfl
@[simp] theorem deliver_inputs (w : Word) (s : State) : (deliver w s).inputs = s.inputs := rfl
@[simp] theorem deliver_answers (w : Word) (s : State) : (deliver w s).answers = s.answers := rfl
@[simp] theorem deliver_results (w : Word) (s : State) : (deliver w s).results = s.results ++ [w] := rfl
@[simp] theorem deliver_blocks (w : Word) (s : State) : (deliver w s).blocks = s.blocks := rfl

/-! ### `writeHist` -/

@[simp] theorem writeHist_z (s : State) (k : Fin 9) (h : History) : (writeHist s k h).z = s.z.set k h := rfl
@[simp] theorem writeHist_coef (s : State) (k : Fin 9) (h : History) : (writeHist s k h).coef = s.coef := rfl
@[simp] theorem writeHist_fmtRate (s : State) (k : Fin 9) (h : History) : (writeHist s k h).fmtRate = s.fmtRate := rfl
@[simp] theorem writeHist_fmtCh (s : State) (k : Fin 9) (h : History) : (writeHist s k h).fmtCh = s.fmtCh := rfl
@[simp] theorem writeHist_life (s : State) (k : Fin 9) (h : History) : (writeHist s k h).life = s.life := rfl
@[simp] theorem writeHist_eos (s : State) (k : Fin 9) (h : History) : (writeHist s k h).eos = s.eos := rfl
@[simp] theorem writeHist_bufValid (s : State) (k : Fin 9) (h : History) :
    (writeHist s k h).bufValid = s.bufValid := rfl
@[simp] theorem writeHist_buf (s : State) (k : Fin 9) (h : History) : (writeHist s k h).buf = s.buf := rfl
@[simp] theorem writeHist_cnt (s : State) (k : Fin 9) (h : History) : (writeHist s k h).cnt = s.cnt := rfl
@[simp] theorem writeHist_cfg (s : State) (k : Fin 9) (h : History) : (writeHist s k h).cfg = s.cfg := rfl
@[simp] theorem writeHist_waiting (s : State) (k : Fin 9) (h : History) : (writeHist s k h).waiting = s.waiting := rfl
@[simp] theorem writeHist_draws (s : State) (k : Fin 9) (h : History) : (writeHist s k h).draws = s.draws := rfl
@[simp] theorem writeHist_inputs (s : State) (k : Fin 9) (h : History) : (writeHist s k h).inputs = s.inputs := rfl
@[simp] theorem writeHist_answers (s : State) (k : Fin 9) (h : History) : (writeHist s k h).answers = s.answers := rfl
@[simp] theorem writeHist_results (s : State) (k : Fin 9) (h : History) : (writeHist s k h).results = s.results := rfl
@[simp] theorem writeHist_blocks (s : State) (k : Fin 9) (h : History) : (writeHist s k h).blocks = s.blocks := rfl

/-! ### `useDraws` -/

@[simp] theorem useDraws_z (n : Nat) (s : State) : (useDraws n s).z = s.z := rfl
@[simp] theorem useDraws_coef (n : Nat) (s : State) : (useDraws n s).coef = s.coef := rfl
@[simp] theorem useDraws_fmtRate (n : Nat) (s : State) : (useDraws n s).fmtRate = s.fmtRate := rfl
@[simp] theorem useDraws_fmtCh (n : Nat) (s : State) : (useDraws n s).fmtCh = s.fmtCh := rfl
@[simp] theorem useDraws_life (n : Nat) (s : State) : (useDraws n s).life = s.life := rfl
@[simp] theorem useDraws_eos (n : Nat) (s : State) : (useDraws n s).eos = s.eos := rfl
@[simp] theorem useDraws_bufValid (n : Nat) (s : State) : (useDraws n s).bufValid = s.bufValid := rfl
@[simp] theorem useDraws_buf (n : Nat) (s : State) : (useDraws n s).buf = s.buf := rfl
@[simp] theorem useDraws_cnt (n : Nat) (s : State) : (useDraws n s).cnt = s.cnt := rfl
@[simp] theorem useDraws_cfg (n : Nat) (s : State) : (useDraws n s).cfg = s.cfg := rfl
@[simp] theorem useDraws_waiting (n : Nat) (s : State) : (useDraws n s).waiting = s.waiting := rfl
@[simp] theorem useDraws_draws (n : Nat) (s : State) : (useDraws n s).draws = s.draws + n := rfl
@[simp] theorem useDraws_inputs (n : Nat) (s : State) : (useDraws n s).inputs = s.inputs := rfl
@[simp] theorem useDraws_answers (n : Nat) (s : State) : (useDraws n s).answers = s.answers := rfl
@[simp] theorem useDraws_results (n : Nat) (s : State) : (useDraws n s).results = s.results := rfl
@[simp] theorem useDraws_blocks (n : Nat) (s : State) : (useDraws n s).blocks = s.blocks := rfl

/-! ### `setFmt` -/

@[simp] theorem setFmt_z (rate ch : Word) (s : State) : (setFmt rate ch s).z = s.z := rfl
@[simp] theorem setFmt_coef (rate ch : Word) (s : State) : (setFmt rate ch s).coef = s.coef := rfl
@[simp] theorem setFmt_fmtRate (rate ch : Word) (s : State) : (setFmt rate ch s).fmtRate = rate := rfl
@[simp] theorem setFmt_fmtCh (rate ch : Word) (s : State) : (setFmt rate ch s).fmtCh = ch := rfl
@[simp] theorem setFmt_life (rate ch : Word) (s : State) : (setFmt rate ch s).life = s.life := rfl
@[simp] theorem setFmt_eos (rate ch : Word) (s : State) : (setFmt rate ch s).eos = s.eos := rfl
@[simp] theorem setFmt_bufValid (rate ch : Word) (s : State) : (setFmt rate ch s).bufValid = s.bufValid := rfl
@[simp] theorem setFmt_buf (rate ch : Word) (s : State) : (setFmt rate ch s).buf = s.buf := rfl
@[simp] theorem setFmt_cnt (rate ch : Word) (s : State) : (setFmt rate ch s).cnt = s.cnt := rfl
@[simp] theorem setFmt_cfg (rate ch : Word) (s : State) : (setFmt rate ch s).cfg = s.cfg := rfl
@[simp] theorem setFmt_waiting (rate ch : Word) (s : State) : (setFmt rate ch s).waiting = s.waiting := rfl
@[simp] theorem setFmt_draws (rate ch : Word) (s : State) : (setFmt rate ch s).draws = s.draws := rfl
@[simp] theorem setFmt_inputs (rate ch : Word) (s : State) : (setFmt rate ch s).inputs = s.inputs := rfl
@[simp] theorem setFmt_answers (rate ch : Word) (s : State) : (setFmt rate ch s).answers = s.answers := rfl
@[simp] theorem setFmt_results (rate ch : Word) (s : State) : (setFmt rate ch s).results = s.results := rfl
@[simp] theorem setFmt_blocks (rate ch : Word) (s : State) : (setFmt rate ch s).blocks = s.blocks := rfl

/-! ### `setLife` -/

@[simp] theorem setLife_z (l : Life) (s : State) : (setLife l s).z = s.z := rfl
@[simp] theorem setLife_coef (l : Life) (s : State) : (setLife l s).coef = s.coef := rfl
@[simp] theorem setLife_fmtRate (l : Life) (s : State) : (setLife l s).fmtRate = s.fmtRate := rfl
@[simp] theorem setLife_fmtCh (l : Life) (s : State) : (setLife l s).fmtCh = s.fmtCh := rfl
@[simp] theorem setLife_life (l : Life) (s : State) : (setLife l s).life = l := rfl
@[simp] theorem setLife_eos (l : Life) (s : State) : (setLife l s).eos = s.eos := rfl
@[simp] theorem setLife_bufValid (l : Life) (s : State) : (setLife l s).bufValid = s.bufValid := rfl
@[simp] theorem setLife_buf (l : Life) (s : State) : (setLife l s).buf = s.buf := rfl
@[simp] theorem setLife_cnt (l : Life) (s : State) : (setLife l s).cnt = s.cnt := rfl
@[simp] theorem setLife_cfg (l : Life) (s : State) : (setLife l s).cfg = s.cfg := rfl
@[simp] theorem setLife_waiting (l : Life) (s : State) : (setLife l s).waiting = s.waiting := rfl
@[simp] theorem setLife_draws (l : Life) (s : State) : (setLife l s).draws = s.draws := rfl
@[simp] theorem setLife_inputs (l : Life) (s : State) : (setLife l s).inputs = s.inputs := rfl
@[simp] theorem setLife_answers (l : Life) (s : State) : (setLife l s).answers = s.answers := rfl
@[simp] theorem setLife_results (l : Life) (s : State) : (setLife l s).results = s.results := rfl
@[simp] theorem setLife_blocks (l : Life) (s : State) : (setLife l s).blocks = s.blocks := rfl

/-! ### `setBuf` -/

@[simp] theorem setBuf_z (m : Memory) (s : State) : (setBuf m s).z = s.z := rfl
@[simp] theorem setBuf_coef (m : Memory) (s : State) : (setBuf m s).coef = s.coef := rfl
@[simp] theorem setBuf_fmtRate (m : Memory) (s : State) : (setBuf m s).fmtRate = s.fmtRate := rfl
@[simp] theorem setBuf_fmtCh (m : Memory) (s : State) : (setBuf m s).fmtCh = s.fmtCh := rfl
@[simp] theorem setBuf_life (m : Memory) (s : State) : (setBuf m s).life = s.life := rfl
@[simp] theorem setBuf_eos (m : Memory) (s : State) : (setBuf m s).eos = s.eos := rfl
@[simp] theorem setBuf_bufValid (m : Memory) (s : State) : (setBuf m s).bufValid = s.bufValid := rfl
@[simp] theorem setBuf_buf (m : Memory) (s : State) : (setBuf m s).buf = m := rfl
@[simp] theorem setBuf_cnt (m : Memory) (s : State) : (setBuf m s).cnt = s.cnt := rfl
@[simp] theorem setBuf_cfg (m : Memory) (s : State) : (setBuf m s).cfg = s.cfg := rfl
@[simp] theorem setBuf_waiting (m : Memory) (s : State) : (setBuf m s).waiting = s.waiting := rfl
@[simp] theorem setBuf_draws (m : Memory) (s : State) : (setBuf m s).draws = s.draws := rfl
@[simp] theorem setBuf_inputs (m : Memory) (s : State) : (setBuf m s).inputs = s.inputs := rfl
@[simp] theorem setBuf_answers (m : Memory) (s : State) : (setBuf m s).answers = s.answers := rfl
@[simp] theorem setBuf_results (m : Memory) (s : State) : (setBuf m s).results = s.results := rfl
@[simp] theorem setBuf_blocks (m : Memory) (s : State) : (setBuf m s).blocks = s.blocks := rfl

/-! ### `countBytes` -/

@[simp] theorem countBytes_z (r : Word) (s : State) : (countBytes r s).z = s.z := rfl
@[simp] theorem countBytes_coef (r : Word) (s : State) : (countBytes r s).coef = s.coef := rfl
@[simp] theorem countBytes_fmtRate (r : Word) (s : State) : (countBytes r s).fmtRate = s.fmtRate := rfl
@[simp] theorem countBytes_fmtCh (r : Word) (s : State) : (countBytes r s).fmtCh = s.fmtCh := rfl
@[simp] theorem countBytes_life (r : Word) (s : State) : (countBytes r s).life = s.life := rfl
@[simp] theorem countBytes_eos (r : Word) (s : State) : (countBytes r s).eos = s.eos := rfl
@[simp] theorem countBytes_bufValid (r : Word) (s : State) : (countBytes r s).bufValid = s.bufValid := rfl
@[simp] theorem countBytes_buf (r : Word) (s : State) : (countBytes r s).buf = s.buf := rfl
@[simp] theorem countBytes_cnt (r : Word) (s : State) : (countBytes r s).cnt = s.cnt + r := rfl
@[simp] theorem countBytes_cfg (r : Word) (s : State) : (countBytes r s).cfg = s.cfg := rfl
@[simp] theorem countBytes_waiting (r : Word) (s : State) : (countBytes r s).waiting = s.waiting := rfl
@[simp] theorem countBytes_draws (r : Word) (s : State) : (countBytes r s).draws = s.draws := rfl
@[simp] theorem countBytes_inputs (r : Word) (s : State) : (countBytes r s).inputs = s.inputs := rfl
@[simp] theorem countBytes_answers (r : Word) (s : State) : (countBytes r s).answers = s.answers := rfl
@[simp] theorem countBytes_results (r : Word) (s : State) : (countBytes r s).results = s.results := rfl
@[simp] theorem countBytes_blocks (r : Word) (s : State) : (countBytes r s).blocks = s.blocks := rfl

/-! ### `clearEos` -/

@[simp] theorem clearEos_z (s : State) : (clearEos s).z = s.z := rfl
@[simp] theorem clearEos_coef (s : State) : (clearEos s).coef = s.coef := rfl
@[simp] theorem clearEos_fmtRate (s : State) : (clearEos s).fmtRate = s.fmtRate := rfl
@[simp] theorem clearEos_fmtCh (s : State) : (clearEos s).fmtCh = s.fmtCh := rfl
@[simp] theorem clearEos_life (s : State) : (clearEos s).life = s.life := rfl
@[simp] theorem clearEos_eos (s : State) : (clearEos s).eos = false := rfl
@[simp] theorem clearEos_bufValid (s : State) : (clearEos s).bufValid = s.bufValid := rfl
@[simp] theorem clearEos_buf (s : State) : (clearEos s).buf = s.buf := rfl
@[simp] theorem clearEos_cnt (s : State) : (clearEos s).cnt = s.cnt := rfl
@[simp] theorem clearEos_cfg (s : State) : (clearEos s).cfg = s.cfg := rfl
@[simp] theorem clearEos_waiting (s : State) : (clearEos s).waiting = s.waiting := rfl
@[simp] theorem clearEos_draws (s : State) : (clearEos s).draws = s.draws := rfl
@[simp] theorem clearEos_inputs (s : State) : (clearEos s).inputs = s.inputs := rfl
@[simp] theorem clearEos_answers (s : State) : (clearEos s).answers = s.answers := rfl
@[simp] theorem clearEos_results (s : State) : (clearEos s).results = s.results := rfl
@[simp] theorem clearEos_blocks (s : State) : (clearEos s).blocks = s.blocks := rfl

/-! ### `noteShortRead` -/

@[simp] theorem noteShortRead_z (r : Word) (s : State) : (noteShortRead r s).z = s.z := rfl
@[simp] theorem noteShortRead_coef (r : Word) (s : State) : (noteShortRead r s).coef = s.coef := rfl
@[simp] theorem noteShortRead_fmtRate (r : Word) (s : State) : (noteShortRead r s).fmtRate = s.fmtRate := rfl
@[simp] theorem noteShortRead_fmtCh (r : Word) (s : State) : (noteShortRead r s).fmtCh = s.fmtCh := rfl
@[simp] theorem noteShortRead_life (r : Word) (s : State) : (noteShortRead r s).life = s.life := rfl
@[simp] theorem noteShortRead_eos (r : Word) (s : State) :
    (noteShortRead r s).eos = if r.toInt < 128 then true else s.eos := rfl
@[simp] theorem noteShortRead_bufValid (r : Word) (s : State) : (noteShortRead r s).bufValid = s.bufValid := rfl
@[simp] theorem noteShortRead_buf (r : Word) (s : State) : (noteShortRead r s).buf = s.buf := rfl
@[simp] theorem noteShortRead_cnt (r : Word) (s : State) : (noteShortRead r s).cnt = s.cnt := rfl
@[simp] theorem noteShortRead_cfg (r : Word) (s : State) : (noteShortRead r s).cfg = s.cfg := rfl
@[simp] theorem noteShortRead_waiting (r : Word) (s : State) : (noteShortRead r s).waiting = s.waiting := rfl
@[simp] theorem noteShortRead_draws (r : Word) (s : State) : (noteShortRead r s).draws = s.draws := rfl
@[simp] theorem noteShortRead_inputs (r : Word) (s : State) : (noteShortRead r s).inputs = s.inputs := rfl
@[simp] theorem noteShortRead_answers (r : Word) (s : State) : (noteShortRead r s).answers = s.answers := rfl
@[simp] theorem noteShortRead_results (r : Word) (s : State) : (noteShortRead r s).results = s.results := rfl
@[simp] theorem noteShortRead_blocks (r : Word) (s : State) : (noteShortRead r s).blocks = s.blocks := rfl

/-! ### `validateBuffer` -/

@[simp] theorem validateBuffer_z (s : State) : (validateBuffer s).z = s.z := rfl
@[simp] theorem validateBuffer_coef (s : State) : (validateBuffer s).coef = s.coef := rfl
@[simp] theorem validateBuffer_fmtRate (s : State) : (validateBuffer s).fmtRate = s.fmtRate := rfl
@[simp] theorem validateBuffer_fmtCh (s : State) : (validateBuffer s).fmtCh = s.fmtCh := rfl
@[simp] theorem validateBuffer_life (s : State) : (validateBuffer s).life = s.life := rfl
@[simp] theorem validateBuffer_eos (s : State) : (validateBuffer s).eos = s.eos := rfl
@[simp] theorem validateBuffer_bufValid (s : State) : (validateBuffer s).bufValid = true := rfl
@[simp] theorem validateBuffer_buf (s : State) : (validateBuffer s).buf = s.buf := rfl
@[simp] theorem validateBuffer_cnt (s : State) : (validateBuffer s).cnt = s.cnt := rfl
@[simp] theorem validateBuffer_cfg (s : State) : (validateBuffer s).cfg = s.cfg := rfl
@[simp] theorem validateBuffer_waiting (s : State) : (validateBuffer s).waiting = s.waiting := rfl
@[simp] theorem validateBuffer_draws (s : State) : (validateBuffer s).draws = s.draws := rfl
@[simp] theorem validateBuffer_inputs (s : State) : (validateBuffer s).inputs = s.inputs := rfl
@[simp] theorem validateBuffer_answers (s : State) : (validateBuffer s).answers = s.answers := rfl
@[simp] theorem validateBuffer_results (s : State) : (validateBuffer s).results = s.results := rfl
@[simp] theorem validateBuffer_blocks (s : State) : (validateBuffer s).blocks = s.blocks := rfl

/-! ### `acceptRead` -/

@[simp] theorem acceptRead_z (r : Word) (m : Memory) (s : State) : (acceptRead r m s).z = s.z := rfl
@[simp] theorem acceptRead_coef (r : Word) (m : Memory) (s : State) : (acceptRead r m s).coef = s.coef := rfl
@[simp] theorem acceptRead_fmtRate (r : Word) (m : Memory) (s : State) : (acceptRead r m s).fmtRate = s.fmtRate := rfl
@[simp] theorem acceptRead_fmtCh (r : Word) (m : Memory) (s : State) : (acceptRead r m s).fmtCh = s.fmtCh := rfl
@[simp] theorem acceptRead_life (r : Word) (m : Memory) (s : State) : (acceptRead r m s).life = s.life := rfl
@[simp] theorem acceptRead_eos (r : Word) (m : Memory) (s : State) :
    (acceptRead r m s).eos = if r.toInt < 128 then true else s.eos := rfl
@[simp] theorem acceptRead_bufValid (r : Word) (m : Memory) (s : State) :
    (acceptRead r m s).bufValid = s.bufValid := rfl
@[simp] theorem acceptRead_buf (r : Word) (m : Memory) (s : State) : (acceptRead r m s).buf = m := rfl
@[simp] theorem acceptRead_cnt (r : Word) (m : Memory) (s : State) : (acceptRead r m s).cnt = s.cnt + r := rfl
@[simp] theorem acceptRead_cfg (r : Word) (m : Memory) (s : State) : (acceptRead r m s).cfg = s.cfg := rfl
@[simp] theorem acceptRead_waiting (r : Word) (m : Memory) (s : State) : (acceptRead r m s).waiting = s.waiting := rfl
@[simp] theorem acceptRead_draws (r : Word) (m : Memory) (s : State) : (acceptRead r m s).draws = s.draws := rfl
@[simp] theorem acceptRead_inputs (r : Word) (m : Memory) (s : State) : (acceptRead r m s).inputs = s.inputs := rfl
@[simp] theorem acceptRead_answers (r : Word) (m : Memory) (s : State) : (acceptRead r m s).answers = s.answers := rfl
@[simp] theorem acceptRead_results (r : Word) (m : Memory) (s : State) : (acceptRead r m s).results = s.results := rfl
@[simp] theorem acceptRead_blocks (r : Word) (m : Memory) (s : State) : (acceptRead r m s).blocks = s.blocks := rfl

/-! ### `openWith` -/

@[simp] theorem openWith_z (rate ch : Word) (m : Memory) (s : State) : (openWith rate ch m s).z = s.z := rfl
@[simp] theorem openWith_coef (rate ch : Word) (m : Memory) (s : State) : (openWith rate ch m s).coef = s.coef := rfl
@[simp] theorem openWith_fmtRate (rate ch : Word) (m : Memory) (s : State) :
    (openWith rate ch m s).fmtRate = rate := rfl
@[simp] theorem openWith_fmtCh (rate ch : Word) (m : Memory) (s : State) : (openWith rate ch m s).fmtCh = ch := rfl
@[simp] theorem openWith_life (rate ch : Word) (m : Memory) (s : State) : (openWith rate ch m s).life = .opened := rfl
@[simp] theorem openWith_eos (rate ch : Word) (m : Memory) (s : State) : (openWith rate ch m s).eos = false := rfl
@[simp] theorem openWith_bufValid (rate ch : Word) (m : Memory) (s : State) :
    (openWith rate ch m s).bufValid = true := rfl
@[simp] theorem openWith_buf (rate ch : Word) (m : Memory) (s : State) : (openWith rate ch m s).buf = m := rfl
@[simp] theorem openWith_cnt (rate ch : Word) (m : Memory) (s : State) : (openWith rate ch m s).cnt = s.cnt := rfl
@[simp] theorem openWith_cfg (rate ch : Word) (m : Memory) (s : State) : (openWith rate ch m s).cfg = s.cfg := rfl
@[simp] theorem openWith_waiting (rate ch : Word) (m : Memory) (s : State) :
    (openWith rate ch m s).waiting = s.waiting := rfl
@[simp] theorem openWith_draws (rate ch : Word) (m : Memory) (s : State) :
    (openWith rate ch m s).draws = s.draws := rfl
@[simp] theorem openWith_inputs (rate ch : Word) (m : Memory) (s : State) :
    (openWith rate ch m s).inputs = s.inputs := rfl
@[simp] theorem openWith_answers (rate ch : Word) (m : Memory) (s : State) :
    (openWith rate ch m s).answers = s.answers := rfl
@[simp] theorem openWith_results (rate ch : Word) (m : Memory) (s : State) :
    (openWith rate ch m s).results = s.results := rfl
@[simp] theorem openWith_blocks (rate ch : Word) (m : Memory) (s : State) :
    (openWith rate ch m s).blocks = s.blocks := rfl

/-! ### `applyReset` -/

@[simp] theorem applyReset_z (p : ResetParams) (s : State) :
    (applyReset p s).z = Vector.replicate 9 silentHistory := rfl
@[simp] theorem applyReset_coef (p : ResetParams) (s : State) : (applyReset p s).coef = p.coef := rfl
@[simp] theorem applyReset_fmtRate (p : ResetParams) (s : State) : (applyReset p s).fmtRate = p.initRate := rfl
@[simp] theorem applyReset_fmtCh (p : ResetParams) (s : State) : (applyReset p s).fmtCh = p.initCh := rfl
@[simp] theorem applyReset_life (p : ResetParams) (s : State) : (applyReset p s).life = .created := rfl
@[simp] theorem applyReset_eos (p : ResetParams) (s : State) : (applyReset p s).eos = false := rfl
@[simp] theorem applyReset_bufValid (p : ResetParams) (s : State) : (applyReset p s).bufValid = false := rfl
@[simp] theorem applyReset_buf (p : ResetParams) (s : State) : (applyReset p s).buf = unspecifiedBuffer s.draws :=
  rfl
@[simp] theorem applyReset_cnt (p : ResetParams) (s : State) : (applyReset p s).cnt = 0#32 := rfl
@[simp] theorem applyReset_cfg (p : ResetParams) (s : State) : (applyReset p s).cfg = p.cfg := rfl
@[simp] theorem applyReset_waiting (p : ResetParams) (s : State) : (applyReset p s).waiting = none := rfl
@[simp] theorem applyReset_draws (p : ResetParams) (s : State) : (applyReset p s).draws = s.draws + 1 := rfl
@[simp] theorem applyReset_inputs (p : ResetParams) (s : State) : (applyReset p s).inputs = s.inputs := rfl
@[simp] theorem applyReset_answers (p : ResetParams) (s : State) : (applyReset p s).answers = s.answers := rfl
@[simp] theorem applyReset_results (p : ResetParams) (s : State) : (applyReset p s).results = s.results := rfl
@[simp] theorem applyReset_blocks (p : ResetParams) (s : State) : (applyReset p s).blocks = s.blocks := rfl

/-! ### `setFormatAnswer` -/

@[simp] theorem setFormatAnswer_z (hr hc : Word) (s : State) : (setFormatAnswer hr hc s).z = s.z := rfl
@[simp] theorem setFormatAnswer_coef (hr hc : Word) (s : State) : (setFormatAnswer hr hc s).coef = s.coef := rfl
@[simp] theorem setFormatAnswer_fmtRate (hr hc : Word) (s : State) :
    (setFormatAnswer hr hc s).fmtRate = s.fmtRate := rfl
@[simp] theorem setFormatAnswer_fmtCh (hr hc : Word) (s : State) : (setFormatAnswer hr hc s).fmtCh = s.fmtCh := rfl
@[simp] theorem setFormatAnswer_life (hr hc : Word) (s : State) : (setFormatAnswer hr hc s).life = s.life := rfl
@[simp] theorem setFormatAnswer_eos (hr hc : Word) (s : State) : (setFormatAnswer hr hc s).eos = s.eos := rfl
@[simp] theorem setFormatAnswer_bufValid (hr hc : Word) (s : State) :
    (setFormatAnswer hr hc s).bufValid = s.bufValid := rfl
@[simp] theorem setFormatAnswer_buf (hr hc : Word) (s : State) : (setFormatAnswer hr hc s).buf = s.buf := rfl
@[simp] theorem setFormatAnswer_cnt (hr hc : Word) (s : State) : (setFormatAnswer hr hc s).cnt = s.cnt := rfl
@[simp] theorem setFormatAnswer_cfg (hr hc : Word) (s : State) : (setFormatAnswer hr hc s).cfg = s.cfg := rfl
@[simp] theorem setFormatAnswer_waiting (hr hc : Word) (s : State) :
    (setFormatAnswer hr hc s).waiting = s.waiting := rfl
@[simp] theorem setFormatAnswer_draws (hr hc : Word) (s : State) : (setFormatAnswer hr hc s).draws = s.draws := rfl
@[simp] theorem setFormatAnswer_inputs (hr hc : Word) (s : State) : (setFormatAnswer hr hc s).inputs = s.inputs := rfl
@[simp] theorem setFormatAnswer_answers (hr hc : Word) (s : State) :
    (setFormatAnswer hr hc s).answers = { s.answers with rate := hr, ch := hc } := rfl
@[simp] theorem setFormatAnswer_results (hr hc : Word) (s : State) :
    (setFormatAnswer hr hc s).results = s.results := rfl
@[simp] theorem setFormatAnswer_blocks (hr hc : Word) (s : State) : (setFormatAnswer hr hc s).blocks = s.blocks := rfl

/-! ### `setAllocAnswer` -/

@[simp] theorem setAllocAnswer_z (ok : Bool) (s : State) : (setAllocAnswer ok s).z = s.z := rfl
@[simp] theorem setAllocAnswer_coef (ok : Bool) (s : State) : (setAllocAnswer ok s).coef = s.coef := rfl
@[simp] theorem setAllocAnswer_fmtRate (ok : Bool) (s : State) : (setAllocAnswer ok s).fmtRate = s.fmtRate := rfl
@[simp] theorem setAllocAnswer_fmtCh (ok : Bool) (s : State) : (setAllocAnswer ok s).fmtCh = s.fmtCh := rfl
@[simp] theorem setAllocAnswer_life (ok : Bool) (s : State) : (setAllocAnswer ok s).life = s.life := rfl
@[simp] theorem setAllocAnswer_eos (ok : Bool) (s : State) : (setAllocAnswer ok s).eos = s.eos := rfl
@[simp] theorem setAllocAnswer_bufValid (ok : Bool) (s : State) : (setAllocAnswer ok s).bufValid = s.bufValid := rfl
@[simp] theorem setAllocAnswer_buf (ok : Bool) (s : State) : (setAllocAnswer ok s).buf = s.buf := rfl
@[simp] theorem setAllocAnswer_cnt (ok : Bool) (s : State) : (setAllocAnswer ok s).cnt = s.cnt := rfl
@[simp] theorem setAllocAnswer_cfg (ok : Bool) (s : State) : (setAllocAnswer ok s).cfg = s.cfg := rfl
@[simp] theorem setAllocAnswer_waiting (ok : Bool) (s : State) : (setAllocAnswer ok s).waiting = s.waiting := rfl
@[simp] theorem setAllocAnswer_draws (ok : Bool) (s : State) : (setAllocAnswer ok s).draws = s.draws := rfl
@[simp] theorem setAllocAnswer_inputs (ok : Bool) (s : State) : (setAllocAnswer ok s).inputs = s.inputs := rfl
@[simp] theorem setAllocAnswer_answers (ok : Bool) (s : State) :
    (setAllocAnswer ok s).answers = { s.answers with alloc := ok } := rfl
@[simp] theorem setAllocAnswer_results (ok : Bool) (s : State) : (setAllocAnswer ok s).results = s.results := rfl
@[simp] theorem setAllocAnswer_blocks (ok : Bool) (s : State) : (setAllocAnswer ok s).blocks = s.blocks := rfl

/-! ### `releaseBuffer` -/

@[simp] theorem releaseBuffer_z (s : State) : (releaseBuffer s).z = s.z := by
  unfold releaseBuffer; split <;> rfl
@[simp] theorem releaseBuffer_coef (s : State) : (releaseBuffer s).coef = s.coef := by
  unfold releaseBuffer; split <;> rfl
@[simp] theorem releaseBuffer_fmtRate (s : State) : (releaseBuffer s).fmtRate = s.fmtRate := by
  unfold releaseBuffer; split <;> rfl
@[simp] theorem releaseBuffer_fmtCh (s : State) : (releaseBuffer s).fmtCh = s.fmtCh := by
  unfold releaseBuffer; split <;> rfl
@[simp] theorem releaseBuffer_life (s : State) : (releaseBuffer s).life = s.life := by
  unfold releaseBuffer; split <;> rfl
@[simp] theorem releaseBuffer_eos (s : State) : (releaseBuffer s).eos = s.eos := by
  unfold releaseBuffer; split <;> rfl
@[simp] theorem releaseBuffer_bufValid (s : State) : (releaseBuffer s).bufValid = false := by
  unfold releaseBuffer; split <;> simp_all
@[simp] theorem releaseBuffer_buf (s : State) :
    (releaseBuffer s).buf = if s.bufValid then unspecifiedBuffer s.draws else s.buf := by
  unfold releaseBuffer; split <;> rfl
@[simp] theorem releaseBuffer_cnt (s : State) : (releaseBuffer s).cnt = s.cnt := by
  unfold releaseBuffer; split <;> rfl
@[simp] theorem releaseBuffer_cfg (s : State) : (releaseBuffer s).cfg = s.cfg := by
  unfold releaseBuffer; split <;> rfl
@[simp] theorem releaseBuffer_waiting (s : State) : (releaseBuffer s).waiting = s.waiting := by
  unfold releaseBuffer; split <;> rfl
@[simp] theorem releaseBuffer_draws (s : State) :
    (releaseBuffer s).draws = if s.bufValid then s.draws + 1 else s.draws := by
  unfold releaseBuffer; split <;> rfl
@[simp] theorem releaseBuffer_inputs (s : State) : (releaseBuffer s).inputs = s.inputs := by
  unfold releaseBuffer; split <;> rfl
@[simp] theorem releaseBuffer_answers (s : State) : (releaseBuffer s).answers = s.answers := by
  unfold releaseBuffer; split <;> rfl
@[simp] theorem releaseBuffer_results (s : State) : (releaseBuffer s).results = s.results := by
  unfold releaseBuffer; split <;> rfl
@[simp] theorem releaseBuffer_blocks (s : State) : (releaseBuffer s).blocks = s.blocks := by
  unfold releaseBuffer; split <;> rfl

/-! ### `unspecifyRegisters`: only what it leaves, and the buffer; the rest is free -/

@[simp] theorem unspecifyRegisters_life (s : State) : (unspecifyRegisters s).life = s.life := rfl
@[simp] theorem unspecifyRegisters_buf (s : State) : (unspecifyRegisters s).buf = unspecifiedBuffer s.draws :=
  rfl
@[simp] theorem unspecifyRegisters_waiting (s : State) : (unspecifyRegisters s).waiting = s.waiting := rfl
@[simp] theorem unspecifyRegisters_draws (s : State) : (unspecifyRegisters s).draws = s.draws + 1 := rfl
@[simp] theorem unspecifyRegisters_inputs (s : State) : (unspecifyRegisters s).inputs = s.inputs := rfl
@[simp] theorem unspecifyRegisters_answers (s : State) : (unspecifyRegisters s).answers = s.answers := rfl
@[simp] theorem unspecifyRegisters_results (s : State) : (unspecifyRegisters s).results = s.results := rfl
@[simp] theorem unspecifyRegisters_blocks (s : State) : (unspecifyRegisters s).blocks = s.blocks := rfl

/-! ### `readHist`, `readCoef` -/

theorem readHist_writeHist (s : State) (j k : Fin 9) (h : History) :
    readHist (writeHist s k h) j = if j = k then h else readHist s j := by
  by_cases hjk : j = k
  · subst hjk; simp [readHist]
  · have : k.val ≠ j.val := fun e => hjk (Fin.ext e.symm)
    simp [readHist, hjk, Vector.getElem_set_ne, this]

@[simp] theorem readHist_useDraws (s : State) (k : Fin 9) (n : Nat) :
    readHist (useDraws n s) k = readHist s k := rfl

@[simp] theorem readCoef_writeHist (s : State) (j k : Fin 9) (h : History) :
    readCoef (writeHist s k h) j = readCoef s j := rfl

@[simp] theorem readCoef_useDraws (s : State) (k : Fin 9) (n : Nat) :
    readCoef (useDraws n s) k = readCoef s k := rfl

/-- Two states agree when their named fields do. -/
theorem State.ext_fields {s t : State} (hz : s.z = t.z) (hc : s.coef = t.coef) (hr : s.fmtRate = t.fmtRate)
    (hh : s.fmtCh = t.fmtCh) (hl : s.life = t.life) (he : s.eos = t.eos) (hv : s.bufValid = t.bufValid)
    (hb : s.buf = t.buf) (hn : s.cnt = t.cnt) (hg : s.cfg = t.cfg) (hw : s.waiting = t.waiting)
    (hd : s.draws = t.draws) (hi : s.inputs = t.inputs) (ha : s.answers = t.answers) (ho : s.results = t.results)
    (hk : s.blocks = t.blocks) : s = t := by
  cases s; cases t; simp_all

/-- R130, R131: RESET with the default parameters of a machine whose host has done nothing yet is the reset
state, the free values of the buffer apart, which are a new draw. -/
theorem applyReset_reset : applyReset Config.defaultParams State.reset =
    { State.reset with buf := unspecifiedBuffer 1, draws := 2 } := rfl

/-- R23: the encoding tells the five values apart, and the values 5 to 7 never occur. -/
theorem lifeCode_lt (l : Life) : (lifeCode l).toNat < 5 := by cases l <;> decide

theorem lifeCode_injective {l m : Life} (h : lifeCode l = lifeCode m) : l = m := by
  cases l <;> cases m <;> first | rfl | exact absurd h (by decide)

end Sys2Proof.Machine
end

