-- ==== Sys2Proof/Laws/Float.lean ====
section
/-! SUPPORT. The fields of a pattern, the classes of the results, and where a result depends on its draw: nowhere but in a
NaN. -/

namespace Sys2Proof.Machine

/-! ### Patterns -/

theorem signed_toNat {neg : Bool} {mag : Nat} (h : mag < 2 ^ 31) :
    (signed neg mag).toNat = (if neg then 2 ^ 31 else 0) + mag := by
  unfold signed
  rw [BitVec.toNat_ofNat]
  apply Nat.mod_eq_of_lt
  split <;> omega

theorem fExp_signed {neg : Bool} {mag : Nat} (h : mag < 2 ^ 31) : fExp (signed neg mag) = mag / 2 ^ 23 := by
  unfold fExp
  rw [signed_toNat h]
  split <;> omega

theorem fFrac_signed {neg : Bool} {mag : Nat} (h : mag < 2 ^ 31) : fFrac (signed neg mag) = mag % 2 ^ 23 := by
  unfold fFrac
  rw [signed_toNat h]
  split <;> omega

theorem fSign_eq (a : F32) : fSign a = decide (2 ^ 31 ≤ a.toNat) := by
  have := a.isLt
  unfold fSign
  rw [BitVec.getLsbD, Nat.testBit_eq_decide_div_mod_eq]
  congr 1
  apply propext
  omega

theorem fSign_signed {neg : Bool} {mag : Nat} (h : mag < 2 ^ 31) : fSign (signed neg mag) = neg := by
  rw [fSign_eq, signed_toNat h]
  cases neg <;> simp
  omega

theorem isNaN_signed {neg : Bool} {mag : Nat} (h : mag ≤ infMag) : isNaN (signed neg mag) = false := by
  unfold infMag at h
  unfold isNaN
  rw [fExp_signed (by omega), fFrac_signed (by omega)]
  have : mag / 2 ^ 23 = 255 → mag % 2 ^ 23 = 0 := by omega
  simpa using this

theorem isFinite_signed {neg : Bool} {mag : Nat} (h : mag < infMag) : isFinite (signed neg mag) = true := by
  unfold infMag at h
  unfold isFinite
  rw [fExp_signed (by omega)]
  simp
  omega

theorem isInf_signed_inf (neg : Bool) : isInf (signed neg infMag) = true := by cases neg <;> decide

theorem units_signed_zero (neg : Bool) : units (signed neg 0) = 0 := by cases neg <;> decide

@[simp] theorem isNaN_nanOf (d : Nat) : isNaN (nanOf d) = true := by
  have hf := (Config.nanChoice d).frac.isLt
  unfold nanOf isNaN
  rw [fExp_signed (by unfold infMag; omega), fFrac_signed (by unfold infMag; omega)]
  simp [infMag]
  omega

/-- Every pattern is a NaN, an infinity or finite. -/
theorem class_cases (a : F32) : isNaN a = true ∨ isInf a = true ∨ isFinite a = true := by
  unfold isNaN isInf isFinite
  by_cases h : fExp a = 255 <;> by_cases h' : fFrac a = 0 <;> simp [h, h']

theorem isFinite_not_isNaN {a : F32} (h : isFinite a = true) : isNaN a = false := by
  unfold isFinite at h; unfold isNaN; simp_all

theorem isFinite_not_isInf {a : F32} (h : isFinite a = true) : isInf a = false := by
  unfold isFinite at h; unfold isInf; simp_all

theorem isInf_not_isNaN {a : F32} (h : isInf a = true) : isNaN a = false := by
  unfold isInf at h; unfold isNaN; simp_all

theorem isFinite_of_isZero {a : F32} (h : isZero a = true) : isFinite a = true := by
  unfold isZero at h; unfold isFinite; simp_all

theorem isZero_iff_units (a : F32) : isZero a = true ↔ units a = 0 := by
  unfold isZero units
  by_cases he : fExp a = 0 <;> simp [he]

theorem roundMag_le (num den : Nat) : roundMag num den ≤ infMag := Nat.min_le_right _ _

/-! ### The negation -/

theorem mag_lt (a : F32) : a.toNat % 2 ^ 31 < 2 ^ 31 := Nat.mod_lt _ (by decide)

@[simp] theorem fSign_fneg (a : F32) : fSign (fneg a) = !fSign a := fSign_signed (mag_lt a)

@[simp] theorem fExp_fneg (a : F32) : fExp (fneg a) = fExp a := by
  have := a.isLt
  rw [fneg, fExp_signed (mag_lt a)]
  unfold fExp
  omega

@[simp] theorem fFrac_fneg (a : F32) : fFrac (fneg a) = fFrac a := by
  rw [fneg, fFrac_signed (mag_lt a)]
  unfold fFrac
  omega

@[simp] theorem isNaN_fneg (a : F32) : isNaN (fneg a) = isNaN a := by simp [isNaN]

@[simp] theorem isInf_fneg (a : F32) : isInf (fneg a) = isInf a := by simp [isInf]

@[simp] theorem isFinite_fneg (a : F32) : isFinite (fneg a) = isFinite a := by simp [isFinite]

@[simp] theorem isZero_fneg (a : F32) : isZero (fneg a) = isZero a := by simp [isZero]

@[simp] theorem units_fneg (a : F32) : units (fneg a) = units a := by simp [units]

theorem value_fneg (a : F32) : value (fneg a) = -value a := by
  unfold value
  rw [fSign_fneg, units_fneg]
  cases fSign a <;> simp

/-! ### What an operation can answer: a NaN, by its draw, or a value that no draw touches -/

/-- A result is the NaN of its draw, or is no NaN and depends on no draw. -/
def NaNOrFixed (r : Nat → F32) : Prop :=
  (∀ d, r d = nanOf d) ∨ ∃ v, isNaN v = false ∧ ∀ d, r d = v

theorem fadd_nanOrFixed (a b : F32) : NaNOrFixed fun d => fadd d a b := by
  unfold fadd
  by_cases hn : (isNaN a || isNaN b) = true
  · exact .inl fun d => if_pos hn
  · simp only [if_neg hn]
    simp only [Bool.or_eq_true, not_or, Bool.not_eq_true] at hn
    by_cases ha : isInf a = true
    · simp only [if_pos ha]
      by_cases hb : (isInf b && fSign a != fSign b) = true
      · exact .inl fun d => if_pos hb
      · exact .inr ⟨a, hn.1, fun d => if_neg hb⟩
    · simp only [if_neg ha]
      by_cases hb : isInf b = true
      · exact .inr ⟨b, hn.2, fun d => if_pos hb⟩
      · simp only [if_neg hb]
        by_cases hz : value a + value b = 0
        · exact .inr ⟨_, isNaN_signed (Nat.zero_le _), fun d => if_pos hz⟩
        · exact .inr ⟨_, isNaN_signed (roundMag_le _ _), fun d => if_neg hz⟩

theorem fsub_nanOrFixed (a b : F32) : NaNOrFixed fun d => fsub d a b := fadd_nanOrFixed a (fneg b)

theorem fmul_nanOrFixed (a b : F32) : NaNOrFixed fun d => fmul d a b := by
  unfold fmul
  by_cases hn : (isNaN a || isNaN b) = true
  · exact .inl fun d => if_pos hn
  · simp only [if_neg hn]
    by_cases hi : (isInf a || isInf b) = true
    · simp only [if_pos hi]
      by_cases hz : (isZero a || isZero b) = true
      · exact .inl fun d => if_pos hz
      · exact .inr ⟨_, isNaN_signed (Nat.le_refl _), fun d => if_neg hz⟩
    · exact .inr ⟨_, isNaN_signed (roundMag_le _ _), fun d => if_neg hi⟩

theorem fdiv_nanOrFixed (a b : F32) : NaNOrFixed fun d => fdiv d a b := by
  unfold fdiv
  by_cases hn : (isNaN a || isNaN b) = true
  · exact .inl fun d => if_pos hn
  · simp only [if_neg hn]
    by_cases ha : isInf a = true
    · simp only [if_pos ha]
      by_cases hb : isInf b = true
      · exact .inl fun d => if_pos hb
      · exact .inr ⟨_, isNaN_signed (Nat.le_refl _), fun d => if_neg hb⟩
    · simp only [if_neg ha]
      by_cases hb : isInf b = true
      · exact .inr ⟨_, isNaN_signed (Nat.zero_le _), fun d => if_pos hb⟩
      · simp only [if_neg hb]
        by_cases hz : isZero b = true
        · simp only [if_pos hz]
          by_cases hza : isZero a = true
          · exact .inl fun d => if_pos hza
          · exact .inr ⟨_, isNaN_signed (Nat.le_refl _), fun d => if_neg hza⟩
        · exact .inr ⟨_, isNaN_signed (roundMag_le _ _), fun d => if_neg hz⟩

/-! ### NaN operands -/

theorem fadd_of_isNaN {a b : F32} (h : isNaN a = true ∨ isNaN b = true) (d : Nat) : fadd d a b = nanOf d :=
  if_pos (by simpa using h)

theorem fsub_of_isNaN {a b : F32} (h : isNaN a = true ∨ isNaN b = true) (d : Nat) : fsub d a b = nanOf d :=
  fadd_of_isNaN (by simpa using h) d

theorem fmul_of_isNaN {a b : F32} (h : isNaN a = true ∨ isNaN b = true) (d : Nat) : fmul d a b = nanOf d :=
  if_pos (by simpa using h)

theorem fdiv_of_isNaN {a b : F32} (h : isNaN a = true ∨ isNaN b = true) (d : Nat) : fdiv d a b = nanOf d :=
  if_pos (by simpa using h)

/-! ### Finite operands -/

theorem fadd_finite {a b : F32} (ha : isFinite a = true) (hb : isFinite b = true) (d : Nat) :
    fadd d a b =
      if value a + value b = 0 then signed (fSign a && fSign b) 0
      else signed (decide (value a + value b < 0)) (roundMag (value a + value b).natAbs 1) := by
  unfold fadd
  simp [isFinite_not_isNaN ha, isFinite_not_isNaN hb, isFinite_not_isInf ha, isFinite_not_isInf hb]

theorem fmul_finite {a b : F32} (ha : isFinite a = true) (hb : isFinite b = true) (d : Nat) :
    fmul d a b = signed (fSign a != fSign b) (roundMag (units a * units b) (2 ^ 149)) := by
  unfold fmul
  simp [isFinite_not_isNaN ha, isFinite_not_isNaN hb, isFinite_not_isInf ha, isFinite_not_isInf hb]

theorem fdiv_finite {a b : F32} (ha : isFinite a = true) (hb : isFinite b = true) (hz : isZero b = false)
    (d : Nat) :
    fdiv d a b = signed (fSign a != fSign b) (roundMag (units a * 2 ^ 149) (units b)) := by
  unfold fdiv
  simp [isFinite_not_isNaN ha, isFinite_not_isNaN hb, isFinite_not_isInf ha, isFinite_not_isInf hb, hz]

/-! ### The conversion to an integer -/

theorem f2i_inRange {q : F32} (h : f2iInRange q = true) (d : Nat) :
    f2i d q = BitVec.ofInt 16 ((value q).tdiv (2 ^ 149)) := if_pos h

theorem f2iInRange_iff (q : F32) :
    f2iInRange q = true ↔
      isFinite q = true ∧ -32769 * 2 ^ 149 < value q ∧ value q < 32768 * 2 ^ 149 := by
  simp [f2iInRange, and_assoc]

end Sys2Proof.Machine
end

