-- ==== Sys2Proof/Laws/Biquad.lean ====
section
/-! SUPPORT. What a stage and the chain change: history registers and the counter of draws, nothing else. -/

namespace Sys2Proof.Machine

/-- `t` is `s` but for the history registers and the counter of draws. -/
def HistoryOnly (s t : State) : Prop := t = { s with z := t.z, draws := t.draws }

namespace HistoryOnly

theorem refl (s : State) : HistoryOnly s s := by simp [HistoryOnly]

theorem trans {s t u : State} (h : HistoryOnly s t) (h' : HistoryOnly t u) : HistoryOnly s u := by
  unfold HistoryOnly at *
  rw [h'] ; rw [h]

theorem coef {s t : State} (h : HistoryOnly s t) : t.coef = s.coef := by rw [h]

theorem buf {s t : State} (h : HistoryOnly s t) : t.buf = s.buf := by rw [h]

theorem setBuf {s t : State} (h : HistoryOnly s t) (m : Memory) :
    HistoryOnly (Machine.setBuf m s) (Machine.setBuf m t) := by
  unfold HistoryOnly at *
  rw [h]; rfl

end HistoryOnly

theorem useDraws_historyOnly (n : Nat) (s : State) : HistoryOnly s (useDraws n s) := rfl

/-! ### One stage -/

theorem bqApply_fst (k : Fin 9) (x : F32) (s : State) :
    (bqApply k x s).1 = bqOutput s.draws (readCoef s k) (readHist s k) x := rfl

theorem bqApply_snd (k : Fin 9) (x : F32) (s : State) :
    (bqApply k x s).2 =
      useDraws 9 (writeHist s k (shiftHistory (readHist s k) x (bqApply k x s).1)) := rfl

theorem bqApply_historyOnly (k : Fin 9) (x : F32) (s : State) : HistoryOnly s (bqApply k x s).2 := rfl

/-- R66, R77: the stage's own registers shift, the other stages' stay. -/
theorem readHist_bqApply (j k : Fin 9) (x : F32) (s : State) :
    readHist (bqApply k x s).2 j =
      if j = k then shiftHistory (readHist s k) x (bqApply k x s).1 else readHist s j := by
  rw [bqApply_snd, readHist_useDraws, readHist_writeHist]

@[simp] theorem readCoef_bqApply (j k : Fin 9) (x : F32) (s : State) :
    readCoef (bqApply k x s).2 j = readCoef s j := rfl

@[simp] theorem bqApply_draws (k : Fin 9) (x : F32) (s : State) : (bqApply k x s).2.draws = s.draws + 9 := rfl

/-! ### The chain -/

theorem applyStages_historyOnly (ks : List (Fin 9)) (x : F32) (s : State) :
    HistoryOnly s (applyStages ks x s).2 := by
  induction ks generalizing x s with
  | nil => exact .refl s
  | cons k ks ih => exact (bqApply_historyOnly k x s).trans (ih _ _)

theorem chainApplyAll_historyOnly (x : F32) (s : State) : HistoryOnly s (chainApplyAll x s).2 :=
  applyStages_historyOnly stageOrder x s

theorem applyStages_draws (ks : List (Fin 9)) (x : F32) (s : State) :
    (applyStages ks x s).2.draws = s.draws + 9 * ks.length := by
  induction ks generalizing x s with
  | nil => rfl
  | cons k ks ih => rw [applyStages, ih, bqApply_draws, List.length_cons]; omega

/-- R77: a stage that is not among those run keeps its history. -/
theorem readHist_applyStages_of_not_mem {ks : List (Fin 9)} {j : Fin 9} (h : j ∉ ks) (x : F32) (s : State) :
    readHist (applyStages ks x s).2 j = readHist s j := by
  induction ks generalizing x s with
  | nil => rfl
  | cons k ks ih =>
    simp only [List.mem_cons, not_or] at h
    rw [applyStages, ih h.2, readHist_bqApply, if_neg h.1]

theorem mem_stageOrder (k : Fin 9) : k ∈ stageOrder := by revert k; decide

theorem stageOrder_nodup : stageOrder.Nodup := by decide

/-- Stages, then stages. -/
theorem applyStages_append (ks ls : List (Fin 9)) (x : F32) (s : State) :
    applyStages (ks ++ ls) x s = applyStages ls (applyStages ks x s).1 (applyStages ks x s).2 := by
  induction ks generalizing x s with
  | nil => rfl
  | cons k ks ih => exact ih _ _

end Sys2Proof.Machine
end

