-- ==== Sys2Proof/Laws/Decode.lean ====
section
/-! SUPPORT. The fields of a packed command word, and the one way each decoding comes about. -/

namespace Sys2Proof

/-- R57: the bits of a packed command word. -/
theorem packWord_getLsbD (op : BitVec 3) (rate ch : Word) (i : Nat) :
    (packWord op rate ch).getLsbD i =
      if i < 32 then ch.getLsbD i else if i < 64 then rate.getLsbD (i - 32) else op.getLsbD (i - 64) := by
  change BitVec.getLsbD (op ++ rate ++ ch : BitVec (3 + 32 + 32)) i = _
  rw [BitVec.getLsbD_append, BitVec.getLsbD_append]
  by_cases h1 : i < 32
  · simp [h1]
  · by_cases h2 : i < 64
    · simp [h1, h2, show i - 32 < 32 by omega]
    · simp [h1, h2, show ¬ i - 32 < 32 by omega, show i - 32 - 32 = i - 64 by omega]

@[simp] theorem opField_packWord (op : BitVec 3) (rate ch : Word) : opField (packWord op rate ch) = op := by
  apply BitVec.eq_of_getLsbD_eq
  intro i hi
  simp [opField, packWord_getLsbD, hi, show ¬ 64 + i < 32 by omega]

@[simp] theorem rateField_packWord (op : BitVec 3) (rate ch : Word) :
    rateField (packWord op rate ch) = rate := by
  apply BitVec.eq_of_getLsbD_eq
  intro i hi
  simp [rateField, packWord_getLsbD, hi, show 32 + i < 64 by omega]

@[simp] theorem chField_packWord (op : BitVec 3) (rate ch : Word) : chField (packWord op rate ch) = ch := by
  apply BitVec.eq_of_getLsbD_eq
  intro i hi
  simp [chField, packWord_getLsbD, hi]

/-- A command word is the pack of its own fields. -/
theorem packWord_fields (w : CmdWord) : packWord (opField w) (rateField w) (chField w) = w := by
  apply BitVec.eq_of_getLsbD_eq
  intro i hi
  rw [packWord_getLsbD]
  simp only [opField, rateField, chField, BitVec.getLsbD_extractLsb']
  by_cases h1 : i < 32
  · simp [h1]
  · by_cases h2 : i < 64
    · simp [h1, h2, show i - 32 < 32 by omega, show 32 + (i - 32) = i by omega]
    · simp [h1, h2, show i - 64 < 3 by omega, show 64 + (i - 64) = i by omega]

theorem encode_eq (i : Instr) :
    ∃ rate ch, encode i = packWord i.opcode rate ch ∧
      (∀ r c, i = .configure r c → rate = r ∧ ch = c) := by
  cases i with
  | configure r c => exact ⟨r, c, rfl, by intro r' c' h; cases h; exact ⟨rfl, rfl⟩⟩
  | openStream => exact ⟨0#32, 0#32, rfl, nofun⟩
  | process => exact ⟨0#32, 0#32, rfl, nofun⟩
  | closeStream => exact ⟨0#32, 0#32, rfl, nofun⟩
  | destroy => exact ⟨0#32, 0#32, rfl, nofun⟩

/-- All `decode` can answer, by the opcode alone. -/
theorem decode_cases (w : CmdWord) :
    (opField w = 0#3 ∧ decode w = .ok (.configure (rateField w) (chField w))) ∨
    (opField w = 1#3 ∧ decode w = .ok .openStream) ∨
    (opField w = 2#3 ∧ decode w = .ok .process) ∨
    (opField w = 3#3 ∧ decode w = .ok .closeStream) ∨
    (opField w = 4#3 ∧ decode w = .ok .destroy) ∨
    (5 ≤ (opField w).toNat ∧ decode w = .error (.reservedOpcode (opField w))) := by
  unfold decode
  have key : ∀ op : BitVec 3, op = 0#3 ∨ op = 1#3 ∨ op = 2#3 ∨ op = 3#3 ∨ op = 4#3 ∨ 5 ≤ op.toNat := by
    decide
  rcases key (opField w) with h | h | h | h | h | h
  · simp [h]
  · simp [h]
  · simp [h]
  · simp [h]
  · simp [h]
  · refine .inr (.inr (.inr (.inr (.inr ⟨h, ?_⟩))))
    split <;> first | omega | rfl

/-- A decoded command has the opcode of its word. -/
theorem opcode_of_decode {w : CmdWord} {i : Instr} (h : decode w = .ok i) : i.opcode = opField w := by
  rcases decode_cases w with ⟨ho, hd⟩ | ⟨ho, hd⟩ | ⟨ho, hd⟩ | ⟨ho, hd⟩ | ⟨ho, hd⟩ | ⟨ho, hd⟩
  all_goals
    rw [hd] at h
    cases h
    try rw [ho]; rfl

end Sys2Proof
end

