-- ==== Sys2Proof/Laws/Memory.lean ====
section
/-! SUPPORT. The laws of the transfer buffer: a read after a write, the canonical form, the buffer's being allocated, and
what MemRead and MemWrite answer. -/

namespace Sys2Proof.Machine

/-! ### Reading after writing -/

theorem readByte_writeByte (m : Memory) (a : Nat) (v : Byte) (b : Nat) :
    readByte (writeByte m a v) b = if b = a then some v else readByte m b := by
  induction m with
  | nil => simp [writeByte, readByte]
  | cons e m ih =>
    obtain ⟨c, w⟩ := e
    by_cases h1 : a < c
    · simp only [writeByte, if_pos h1, readByte]
    · by_cases h2 : a = c
      · subst h2
        by_cases h3 : b = a <;> simp [writeByte, readByte, h3]
      · simp only [writeByte, if_neg h1, if_neg h2, readByte]
        by_cases h3 : b = c
        · have : ¬ b = a := by omega
          simp [h3, Ne.symm h2]
        · simp [h3, ih]

theorem readByte_writeBytes_of_lt (vs : List Byte) (m : Memory) (a b : Nat) (h : b < a) :
    readByte (writeBytes m a vs) b = readByte m b := by
  induction vs generalizing m a with
  | nil => rfl
  | cons v vs ih =>
    rw [writeBytes, ih _ _ (by omega), readByte_writeByte, if_neg (by omega)]

theorem readByte_writeBytes_of_ge (vs : List Byte) (m : Memory) (a b : Nat) (h : a + vs.length ≤ b) :
    readByte (writeBytes m a vs) b = readByte m b := by
  induction vs generalizing m a with
  | nil => rfl
  | cons v vs ih =>
    simp only [List.length_cons] at h
    rw [writeBytes, ih _ _ (by omega), readByte_writeByte, if_neg (by omega)]

theorem readByte_writeBytes_mem (vs : List Byte) (m : Memory) (a t : Nat) (h : t < vs.length) :
    readByte (writeBytes m a vs) (a + t) = some vs[t] := by
  induction vs generalizing m a t with
  | nil => simp at h
  | cons v vs ih =>
    rw [writeBytes]
    cases t with
    | zero => simp [readByte_writeBytes_of_lt, readByte_writeByte]
    | succ t =>
      have := ih (writeByte m a v) (a + 1) t (by simpa using h)
      rw [show a + (t + 1) = a + 1 + t by omega, this]
      simp

/-! ### The canonical form -/

theorem risingFrom_mono {lo lo' : Nat} {m : Memory} (hle : lo' ≤ lo) (h : risingFrom lo m = true) :
    risingFrom lo' m = true := by
  cases m with
  | nil => rfl
  | cons e m =>
    simp only [risingFrom, Bool.and_eq_true, decide_eq_true_eq] at h ⊢
    exact ⟨⟨by omega, h.1.2⟩, h.2⟩

theorem risingFrom_writeByte {lo : Nat} {m : Memory} {a : Nat} {v : Byte} (h : risingFrom lo m = true)
    (hlo : lo ≤ a) (ha : a < Config.bufSize) : risingFrom lo (writeByte m a v) = true := by
  induction m generalizing lo with
  | nil => simp [writeByte, risingFrom, hlo, ha]
  | cons e m ih =>
    obtain ⟨c, w⟩ := e
    simp only [risingFrom, Bool.and_eq_true, decide_eq_true_eq] at h
    by_cases h1 : a < c
    · simp only [writeByte, if_pos h1, risingFrom, Bool.and_eq_true, decide_eq_true_eq]
      exact ⟨⟨hlo, ha⟩, ⟨by omega, h.1.2⟩, h.2⟩
    · by_cases h2 : a = c
      · subst h2
        simp only [writeByte, lt_irrefl, if_false, if_true, risingFrom, Bool.and_eq_true,
          decide_eq_true_eq]
        exact ⟨⟨hlo, ha⟩, h.2⟩
      · simp only [writeByte, if_neg h1, if_neg h2, risingFrom, Bool.and_eq_true, decide_eq_true_eq]
        exact ⟨h.1, ih h.2 (by omega)⟩

/-- Every write inside the address space keeps the canonical form. -/
theorem writeByte_wf {m : Memory} {a : Nat} {v : Byte} (h : Memory.wf m = true)
    (ha : a < Config.bufSize) : Memory.wf (writeByte m a v) = true :=
  risingFrom_writeByte h (Nat.zero_le a) ha

theorem writeBytes_wf (vs : List Byte) {m : Memory} {a : Nat} (h : Memory.wf m = true)
    (ha : a + vs.length ≤ Config.bufSize) : Memory.wf (writeBytes m a vs) = true := by
  induction vs generalizing m a with
  | nil => exact h
  | cons v vs ih =>
    simp only [List.length_cons] at ha
    exact ih (writeByte_wf h (by omega)) (by omega)

theorem readByte_of_risingFrom {lo : Nat} {m : Memory} (h : risingFrom lo m = true) {a : Nat}
    (ha : a < lo ∨ Config.bufSize ≤ a) : readByte m a = none := by
  induction m generalizing lo with
  | nil => rfl
  | cons e m ih =>
    obtain ⟨c, w⟩ := e
    simp only [risingFrom, Bool.and_eq_true, decide_eq_true_eq] at h
    rw [readByte, if_neg (by omega)]
    exact ih h.2 (by omega)

/-- R33: a buffer in canonical form holds nothing outside addresses 0 to 127. -/
theorem readByte_outside {m : Memory} (h : Memory.wf m = true) {a : Nat} (ha : Config.bufSize ≤ a) :
    readByte m a = none := readByte_of_risingFrom h (.inr ha)

/-! ### An allocated buffer -/

theorem allocated_iff (m : Memory) :
    Memory.allocated m = true ↔ ∀ a, a < Config.bufSize → (readByte m a).isSome = true := by
  simp [Memory.allocated]

theorem allocated_writeByte {m : Memory} (h : Memory.allocated m = true) (a : Nat) (v : Byte) :
    Memory.allocated (writeByte m a v) = true := by
  rw [allocated_iff] at h ⊢
  intro b hb
  rw [readByte_writeByte]
  split
  · rfl
  · exact h b hb

theorem allocated_writeBytes (vs : List Byte) {m : Memory} (h : Memory.allocated m = true) (a : Nat) :
    Memory.allocated (writeBytes m a vs) = true := by
  induction vs generalizing m a with
  | nil => exact h
  | cons v vs ih => exact ih (allocated_writeByte h a v) (a + 1)

/-- R85: writing the whole buffer allocates it. -/
theorem allocated_of_full_write (m : Memory) {vs : List Byte} (h : vs.length = Config.bufSize) :
    Memory.allocated (writeBytes m 0 vs) = true := by
  rw [allocated_iff]
  intro a ha
  have := readByte_writeBytes_mem vs m 0 a (h ▸ ha)
  rw [Nat.zero_add] at this
  rw [this]
  rfl

/-! ### A buffer that is not valid -/

theorem readByte_map_range (f : Nat → Byte) (lo n a : Nat) :
    readByte ((List.range' lo n).map fun a => (a, f a)) a =
      if lo ≤ a ∧ a < lo + n then some (f a) else none := by
  induction n generalizing lo with
  | zero => simp [readByte]
  | succ n ih =>
    rw [List.range'_succ, List.map_cons, readByte, ih]
    by_cases h : a = lo
    · subst h; simp
    · rw [if_neg h]
      have : lo + 1 ≤ a ∧ a < lo + 1 + n ↔ lo ≤ a ∧ a < lo + (n + 1) := by omega
      simp only [this]

theorem risingFrom_map_range (f : Nat → Byte) (lo n : Nat) (h : lo + n ≤ Config.bufSize) :
    risingFrom lo ((List.range' lo n).map fun a => (a, f a)) = true := by
  induction n generalizing lo with
  | zero => rfl
  | succ n ih =>
    rw [List.range'_succ, List.map_cons, risingFrom, ih (lo + 1) (by omega)]
    simp; omega

/-- R25, U7: a buffer that is not valid holds a free value at every address 0 to 127, and no other. -/
theorem readByte_unspecifiedBuffer (d a : Nat) :
    readByte (unspecifiedBuffer d) a = if a < Config.bufSize then some (Config.unspecifiedByte d a) else none := by
  unfold unspecifiedBuffer
  rw [List.range_eq_range', readByte_map_range]
  simp

@[simp] theorem unspecifiedBuffer_wf (d : Nat) : Memory.wf (unspecifiedBuffer d) = true := by
  unfold unspecifiedBuffer Memory.wf
  rw [List.range_eq_range']
  exact risingFrom_map_range _ 0 _ (by omega)

@[simp] theorem unspecifiedBuffer_allocated (d : Nat) : Memory.allocated (unspecifiedBuffer d) = true := by
  rw [allocated_iff]
  intro a ha
  rw [readByte_unspecifiedBuffer, if_pos ha]
  rfl

/-! ### MemRead and MemWrite -/

/-- All MemRead can answer on allocated addresses: the bytes there, lowest address first. -/
theorem readBytes_ok {m : Memory} (n a : Nat)
    (h : ∀ t, t < n → (readByte m (a + t)).isSome = true) :
    ∃ vs, readBytes m a n = .ok vs ∧ vs.length = n ∧
      ∀ t (ht : t < vs.length), readByte m (a + t) = some vs[t] := by
  induction n generalizing a with
  | zero => exact ⟨[], rfl, rfl, by simp⟩
  | succ n ih =>
    obtain ⟨v, hv⟩ := Option.isSome_iff_exists.mp (h 0 (by omega))
    rw [Nat.add_zero] at hv
    obtain ⟨vs, h1, h2, h3⟩ := ih (a + 1) fun t ht => by
      have := h (t + 1) (by omega)
      rwa [show a + (t + 1) = a + 1 + t by omega] at this
    refine ⟨v :: vs, by simp [readBytes, hv, h1], by simp [h2], ?_⟩
    intro t ht
    cases t with
    | zero => simpa using hv
    | succ t =>
      have := h3 t (by simpa using ht)
      rw [show a + (t + 1) = a + 1 + t by omega, this]
      simp

/-- MemRead of an allocated range succeeds, with the bytes of the range. -/
theorem memRead_ok {m : Memory} (hm : Memory.allocated m = true) {addr n : Nat}
    (h : addr + n ≤ Config.bufSize) :
    ∃ vs, memRead m addr n = .ok vs ∧ vs.length = n ∧
      ∀ t (ht : t < vs.length), readByte m (addr + t) = some vs[t] := by
  rw [allocated_iff] at hm
  obtain ⟨vs, h1, h2, h3⟩ := readBytes_ok n addr fun t ht => hm (addr + t) (by omega)
  exact ⟨vs, by simp [memRead, h, h1], h2, h3⟩

theorem readBytes_eq {m : Memory} (vs : List Byte) (a : Nat)
    (h : ∀ t (ht : t < vs.length), readByte m (a + t) = some vs[t]) :
    readBytes m a vs.length = .ok vs := by
  induction vs generalizing a with
  | nil => rfl
  | cons v vs ih =>
    have h0 := h 0 (by simp)
    simp only [Nat.add_zero, List.getElem_cons_zero] at h0
    have := ih (a + 1) fun t ht => by
      have := h (t + 1) (by simpa using ht)
      rw [show a + (t + 1) = a + 1 + t by omega] at this
      simpa using this
    simp [readBytes, h0, this]

theorem readBytes_length {m : Memory} {a n : Nat} {vs : List Byte} (h : readBytes m a n = .ok vs) :
    vs.length = n := by
  induction n generalizing a vs with
  | zero => simp only [readBytes, Except.ok.injEq] at h; simp [← h]
  | succ n ih =>
    rw [readBytes] at h
    split at h
    · exact absurd h nofun
    · split at h
      · exact absurd h nofun
      · rename_i ws hws
        cases h
        simp [ih hws]

theorem memRead_length {m : Memory} {a n : Nat} {vs : List Byte} (h : memRead m a n = .ok vs) :
    vs.length = n := by
  unfold memRead at h
  split at h
  · exact readBytes_length h
  · exact absurd h nofun

/-- All MemWrite can do: inside the address space it stores the bytes, outside it is a fault. -/
theorem memWrite_of_le {m : Memory} {addr : Nat} {v : List Byte} (h : addr + v.length ≤ Config.bufSize) :
    memWrite m addr v = .ok (writeBytes m addr v) := if_pos h

theorem memWrite_ok_iff {m m' : Memory} {addr : Nat} {v : List Byte} :
    memWrite m addr v = .ok m' ↔ addr + v.length ≤ Config.bufSize ∧ m' = writeBytes m addr v := by
  unfold memWrite
  split
  · simp [*, eq_comm]
  · simp [*]

/-- MemWrite keeps the canonical form. -/
theorem memWrite_wf {m m' : Memory} {addr : Nat} {v : List Byte} (h : Memory.wf m = true)
    (hw : memWrite m addr v = .ok m') : Memory.wf m' = true := by
  obtain ⟨hle, rfl⟩ := memWrite_ok_iff.mp hw
  exact writeBytes_wf v h hle

/-- MemWrite leaves no byte of an allocated buffer without a value. -/
theorem memWrite_allocated {m m' : Memory} {addr : Nat} {v : List Byte} (h : Memory.allocated m = true)
    (hw : memWrite m addr v = .ok m') : Memory.allocated m' = true := by
  obtain ⟨-, rfl⟩ := memWrite_ok_iff.mp hw
  exact allocated_writeBytes v h addr

/-- The reset memory is in canonical form. -/
theorem reset_buf_wf : Memory.wf State.reset.buf = true := unspecifiedBuffer_wf 0

end Sys2Proof.Machine
end

