-- ==== Sys2Proof/Laws/Ops.lean ====
section
/-! SUPPORT. What each shared operation can answer: issuing a command, a host call, a fault passed on, the end of a
command. -/

namespace Sys2Proof.Machine

/-! ### Ending a command -/

@[simp] theorem finish_eq (w : Word) (s : State) : finish w s = .next (deliver w s) := rfl

@[simp] theorem raise_eq (e : ErrorKind) (s : State) : raise e s = .next (deliver (errorWord e) s) := rfl

@[simp] theorem errorWord_invalidArgument : errorWord .invalidArgument = Config.errInvalidArg := rfl

@[simp] theorem errorWord_outOfMemory : errorWord .outOfMemory = Config.errNoMem := rfl

/-! ### A buffer access -/

@[simp] theorem orFault_ok {α : Type} (a : α) (k : α → Out) : orFault (.ok a) k = k a := rfl

@[simp] theorem orFault_error {α : Type} (f : Fault) (k : α → Out) : orFault (.error f) k = .fault f := rfl

theorem orFault_next {α : Type} {r : Except Fault α} {k : α → Out} {t : State}
    (h : orFault r k = .next t) : ∃ a, r = .ok a ∧ k a = .next t := by
  cases r with
  | error f => exact absurd h nofun
  | ok a => exact ⟨a, rfl, h⟩

/-! ### Issuing a command -/

theorem issue_legal {i : Instr} {s : State} (body : State → Out) (hw : s.waiting = none)
    (hl : legal i s.life = true) : issue i s body = body s := by
  simp [issue, hw, hl]

theorem issue_notLegal {i : Instr} {s : State} (body : State → Out) (hw : s.waiting = none)
    (hl : legal i s.life = false) : issue i s body = .refused (.notLegal s.life) := by
  simp [issue, hw, hl]

theorem issue_overlapping {i : Instr} {s : State} (body : State → Out) (hw : s.waiting ≠ none) :
    issue i s body = .refused .overlapping := by
  simp [issue, Option.isSome_iff_ne_none.mpr hw]

/-- All `issue` can do: refuse, or run the body of a legal command with no other in progress. -/
theorem issue_cases (i : Instr) (s : State) (body : State → Out) :
    (s.waiting ≠ none ∧ issue i s body = .refused .overlapping) ∨
    (s.waiting = none ∧ legal i s.life = false ∧ issue i s body = .refused (.notLegal s.life)) ∨
    (s.waiting = none ∧ legal i s.life = true ∧ issue i s body = body s) := by
  by_cases hw : s.waiting = none
  · cases hl : legal i s.life
    · exact .inr (.inl ⟨hw, rfl, issue_notLegal body hw hl⟩)
    · exact .inr (.inr ⟨hw, rfl, issue_legal body hw hl⟩)
  · exact .inl ⟨hw, issue_overlapping body hw⟩

/-- A command that is executed was legal and alone, and its body gave the next state. -/
theorem issue_next {i : Instr} {s t : State} {body : State → Out} (h : issue i s body = .next t) :
    s.waiting = none ∧ legal i s.life = true ∧ body s = .next t := by
  rcases issue_cases i s body with ⟨-, h'⟩ | ⟨-, -, h'⟩ | ⟨hw, hl, h'⟩
  · rw [h'] at h; exact absurd h nofun
  · rw [h'] at h; exact absurd h nofun
  · exact ⟨hw, hl, h' ▸ h⟩

/-- A command that faults was legal and alone, and its body faulted. -/
theorem issue_fault {i : Instr} {s : State} {f : Fault} {body : State → Out}
    (h : issue i s body = .fault f) :
    s.waiting = none ∧ legal i s.life = true ∧ body s = .fault f := by
  rcases issue_cases i s body with ⟨-, h'⟩ | ⟨-, -, h'⟩ | ⟨hw, hl, h'⟩
  · rw [h'] at h; exact absurd h nofun
  · rw [h'] at h; exact absurd h nofun
  · exact ⟨hw, hl, h' ▸ h⟩

/-! ### Host calls -/

section
variable {α : Type} {c : Call} {pick : HostInput → Option α} {s : State} {k : α → State → Out}

/-- The host has not answered: the input list is empty, or begins with something that is no answer. -/
def Unanswered (xs : List HostInput) : Prop :=
  match xs with
  | [] => True
  | x :: _ => isAnswer x = false

theorem callHost_answered {x : HostInput} {rest : List HostInput} {a : α} (hs : s.inputs = x :: rest)
    (ha : pick x = some a) :
    callHost c pick s k = k a { s with inputs := rest, waiting := none } := by
  simp [callHost, hs, ha]

theorem callHost_waits (hs : Unanswered s.inputs) (hp : ∀ x, isAnswer x = false → pick x = none) :
    callHost c pick s k = .next { s with waiting := some c } := by
  unfold callHost
  split
  · rfl
  · rename_i x rest hxs
    rw [hxs] at hs
    have hx : isAnswer x = false := hs
    simp [hp x hx, hx]

theorem callHost_stray {x : HostInput} {rest : List HostInput} (hs : s.inputs = x :: rest)
    (ha : pick x = none) (hx : isAnswer x = true) :
    callHost c pick s k = .refused .strayAnswer := by
  simp [callHost, hs, ha, hx]

/-- All a host call can do: go on with an answer, wait, or refuse an answer to another call. -/
theorem callHost_cases (c : Call) (pick : HostInput → Option α) (s : State) (k : α → State → Out) :
    (∃ x rest a, s.inputs = x :: rest ∧ pick x = some a ∧
      callHost c pick s k = k a { s with inputs := rest, waiting := none }) ∨
    ((s.inputs = [] ∨ ∃ x rest, s.inputs = x :: rest ∧ pick x = none ∧ isAnswer x = false) ∧
      callHost c pick s k = .next { s with waiting := some c }) ∨
    (∃ x rest, s.inputs = x :: rest ∧ pick x = none ∧ isAnswer x = true ∧
      callHost c pick s k = .refused .strayAnswer) := by
  cases hs : s.inputs with
  | nil => exact .inr (.inl ⟨.inl rfl, by simp [callHost, hs]⟩)
  | cons x rest =>
    cases ha : pick x with
    | some a => exact .inl ⟨x, rest, a, rfl, ha, callHost_answered hs ha⟩
    | none =>
      cases hx : isAnswer x with
      | true => exact .inr (.inr ⟨x, rest, rfl, ha, hx, callHost_stray hs ha hx⟩)
      | false =>
        exact .inr (.inl ⟨.inr ⟨x, rest, rfl, ha, hx⟩, by simp [callHost, hs, ha, hx]⟩)

end

theorem readAnswer_none {x : HostInput} (h : isAnswer x = false) : readAnswer x = none := by
  cases x <;> first | rfl | exact absurd h nofun

theorem writeAnswer_none {x : HostInput} (h : isAnswer x = false) : writeAnswer x = none := by
  cases x <;> first | rfl | exact absurd h nofun

theorem readAnswer_eq_some {x : HostInput} {p : Word × List Byte} :
    readAnswer x = some p ↔ x = .read p.1 p.2 := by
  cases x <;> simp [readAnswer, Prod.ext_iff]

theorem writeAnswer_eq_some {x : HostInput} {w : Word} : writeAnswer x = some w ↔ x = .write w := by
  cases x <;> simp [writeAnswer]

end Sys2Proof.Machine
end

