-- ==== Sys2Proof/Laws/Sample.lean ====
section
/-! SUPPORT. What a sample and the sample loop change: the sample's two bytes, history registers, the counter of draws; and
that both succeed on an allocated buffer. -/

namespace Sys2Proof.Machine

/-- `t` is `s` but for the history registers, the counter of draws and the buffer. -/
def DataOnly (s t : State) : Prop := t = { s with z := t.z, draws := t.draws, buf := t.buf }

namespace DataOnly

theorem refl (s : State) : DataOnly s s := by simp [DataOnly]

theorem trans {s t u : State} (h : DataOnly s t) (h' : DataOnly t u) : DataOnly s u := by
  unfold DataOnly at *
  rw [h'] ; rw [h]

theorem of_historyOnly {s t : State} (h : HistoryOnly s t) : DataOnly s t := by
  unfold DataOnly; rw [h]

theorem setBuf (s : State) (m : Memory) : DataOnly s (Machine.setBuf m s) := rfl

section
variable {s t : State} (h : DataOnly s t)
include h

theorem coef : t.coef = s.coef := by rw [h]
theorem fmtRate : t.fmtRate = s.fmtRate := by rw [h]
theorem fmtCh : t.fmtCh = s.fmtCh := by rw [h]
theorem life : t.life = s.life := by rw [h]
theorem eos : t.eos = s.eos := by rw [h]
theorem bufValid : t.bufValid = s.bufValid := by rw [h]
theorem cnt : t.cnt = s.cnt := by rw [h]
theorem cfg : t.cfg = s.cfg := by rw [h]
theorem waiting : t.waiting = s.waiting := by rw [h]
theorem inputs : t.inputs = s.inputs := by rw [h]
theorem answers : t.answers = s.answers := by rw [h]
theorem results : t.results = s.results := by rw [h]
theorem blocks : t.blocks = s.blocks := by rw [h]

end

end DataOnly

/-- R99: the chain's output for the normalised sample, rescaled; the history the chain left. -/
theorem filterSample_eq (v : Sample) (s : State) :
    filterSample v s =
      (smpRescale (chainApplyAll (smpNorm s.draws v) (useDraws 1 s)).2.draws
          (chainApplyAll (smpNorm s.draws v) (useDraws 1 s)).1,
        useDraws 2 (chainApplyAll (smpNorm s.draws v) (useDraws 1 s)).2) := by
  unfold filterSample; rfl

theorem filterSample_historyOnly (v : Sample) (s : State) : HistoryOnly s (filterSample v s).2 := by
  rw [filterSample_eq]
  exact ((useDraws_historyOnly 1 s).trans (chainApplyAll_historyOnly _ _)).trans
    (useDraws_historyOnly 2 _)

theorem smpDecode_eq {i : Nat} {s : State} {hi lo : Byte} (hle : i + 2 ≤ Config.bufSize)
    (h0 : readByte s.buf i = some hi) (h1 : readByte s.buf (i + 1) = some lo) :
    smpDecode i s = .ok (joinBytes hi lo) := by
  simp [smpDecode, memRead, hle, readBytes, h0, h1]

theorem smpEncode_eq {i : Nat} (hle : i + 2 ≤ Config.bufSize) (p : Sample) (s : State) :
    smpEncode i p s = .ok (setBuf (writeBytes s.buf i [highByte p, lowByte p]) s) := by
  have : i + [highByte p, lowByte p].length ≤ Config.bufSize := hle
  simp only [smpEncode, memWrite_of_le this]

/-- R99: on bytes that hold values, a sample is decoded, filtered and written back in place. -/
theorem sampleAt_eq {i : Nat} {s : State} {hi lo : Byte} (hle : i + 2 ≤ Config.bufSize)
    (h0 : readByte s.buf i = some hi) (h1 : readByte s.buf (i + 1) = some lo) :
    sampleAt i s = .ok (setBuf
      (writeBytes s.buf i
        [highByte (filterSample (joinBytes hi lo) s).1, lowByte (filterSample (joinBytes hi lo) s).1])
      (filterSample (joinBytes hi lo) s).2) := by
  rw [sampleAt, smpDecode_eq hle h0 h1]
  simp only [smpEncode_eq hle, (filterSample_historyOnly (joinBytes hi lo) s).buf]

/-- All a sample can do when it succeeds. -/
theorem sampleAt_ok {i : Nat} {s t : State} (h : sampleAt i s = .ok t) :
    ∃ v, smpDecode i s = .ok v ∧ i + 2 ≤ Config.bufSize ∧
      t = setBuf (writeBytes s.buf i [highByte (filterSample v s).1, lowByte (filterSample v s).1])
        (filterSample v s).2 := by
  unfold sampleAt at h
  split at h
  · exact absurd h nofun
  · rename_i v hv
    refine ⟨v, hv, ?_⟩
    unfold smpEncode at h
    split at h
    · rename_i m hm
      obtain ⟨hle, rfl⟩ := memWrite_ok_iff.mp hm
      simp only [Except.ok.injEq] at h
      rw [← h, (filterSample_historyOnly v s).buf]
      exact ⟨hle, rfl⟩
    · exact absurd h nofun

theorem sampleAt_dataOnly {i : Nat} {s t : State} (h : sampleAt i s = .ok t) : DataOnly s t := by
  obtain ⟨v, -, -, rfl⟩ := sampleAt_ok h
  exact (DataOnly.of_historyOnly (filterSample_historyOnly v s)).trans (.setBuf _ _)

theorem sampleAt_buf {i : Nat} {s t : State} (h : sampleAt i s = .ok t) :
    (Memory.wf s.buf = true → Memory.wf t.buf = true) ∧
    (Memory.allocated s.buf = true → Memory.allocated t.buf = true) ∧
    ∀ a, a < i ∨ i + 2 ≤ a → readByte t.buf a = readByte s.buf a := by
  obtain ⟨v, -, hle, rfl⟩ := sampleAt_ok h
  refine ⟨fun hw => writeBytes_wf _ hw hle, fun ha => allocated_writeBytes _ ha i, fun a ha => ?_⟩
  rcases ha with ha | ha
  · exact readByte_writeBytes_of_lt _ _ _ _ ha
  · exact readByte_writeBytes_of_ge _ _ _ _ ha

/-- All the loop can do when it succeeds. -/
theorem sampleLoop_ok {n i : Nat} {s t : State} (h : sampleLoop n i s = .ok t) :
    DataOnly s t ∧
    (Memory.wf s.buf = true → Memory.wf t.buf = true) ∧
    (Memory.allocated s.buf = true → Memory.allocated t.buf = true) ∧
    ∀ a, a < i ∨ i + 2 * n ≤ a → readByte t.buf a = readByte s.buf a := by
  induction n generalizing i s with
  | zero => cases h; exact ⟨.refl _, id, id, fun _ _ => rfl⟩
  | succ n ih =>
    rw [sampleLoop] at h
    split at h
    · exact absurd h nofun
    · rename_i u hu
      obtain ⟨h1, h2, h3, h4⟩ := ih h
      obtain ⟨g2, g3, g4⟩ := sampleAt_buf hu
      refine ⟨(sampleAt_dataOnly hu).trans h1, h2 ∘ g2, h3 ∘ g3, fun a ha => ?_⟩
      unfold nextSlot at h4
      rw [h4 a (by omega), g4 a (by omega)]

/-- R107, R111: on an allocated buffer the loop always completes. -/
theorem sampleLoop_completes {n i : Nat} {s : State} (ha : Memory.allocated s.buf = true)
    (hle : i + 2 * n ≤ Config.bufSize) : ∃ t, sampleLoop n i s = .ok t := by
  induction n generalizing i s with
  | zero => exact ⟨s, rfl⟩
  | succ n ih =>
    have hall := (allocated_iff s.buf).mp ha
    obtain ⟨hi, h0⟩ := Option.isSome_iff_exists.mp (hall i (by omega))
    obtain ⟨lo, h1⟩ := Option.isSome_iff_exists.mp (hall (i + 1) (by omega))
    have hs := sampleAt_eq (s := s) (i := i) (by omega) h0 h1
    obtain ⟨t, ht⟩ := ih (i := nextSlot i) ((sampleAt_buf hs).2.1 ha) (by unfold nextSlot; omega)
    exact ⟨t, by rw [sampleLoop, hs]; exact ht⟩

end Sys2Proof.Machine
end

