-- ==== Sys2Proof/Laws/Process.lean ====
section
/-! SUPPORT. What the steps of PROCESS and OPEN can answer: one lemma per continuation, which later proofs cite instead of
unfolding it. -/

namespace Sys2Proof.Machine

/-! ### The HostRead answer -/

theorem readAnswerWf_iff (r : Word) (data : List Byte) :
    readAnswerWf r data = true ↔ r.toInt ≤ 128 ∧ data.length = r.toInt.toNat := by
  simp [readAnswerWf]

/-- R40: a positive count that keeps the duty, as a natural number. -/
theorem readAnswer_bounds {r : Word} {data : List Byte} (h : readAnswerWf r data = true)
    (hr : ¬ r.toInt ≤ 0) :
    r.toInt = r.toNat ∧ 1 ≤ r.toNat ∧ r.toNat ≤ 128 ∧ data.length = r.toNat := by
  rw [readAnswerWf_iff] at h
  have h32 := r.isLt
  have hi := BitVec.toInt_eq_toNat_cond r
  split at hi <;> omega

theorem samplesIn_le {r : Word} (h : r.toNat ≤ 128) : 0 + 2 * samplesIn r ≤ Config.bufSize := by
  unfold samplesIn Config.bufSize; omega

/-! ### PROCESS -/

/-- All step 6 can do once the block is made: deliver the answer, wait for it, or refuse another. -/
theorem processWrite_next {s t : State} (h : processWrite s = .next t) :
    (∃ w rest, s.inputs = .write w :: rest ∧
      t = deliver w { s with inputs := rest, waiting := none }) ∨
    t = { s with waiting := some .write } := by
  unfold processWrite at h
  rcases callHost_cases .write writeAnswer s (fun w s => finish w s) with
    ⟨x, rest, a, hs, ha, hk⟩ | ⟨-, hk⟩ | ⟨x, rest, -, -, -, hk⟩
  · rw [hk] at h
    rw [writeAnswer_eq_some] at ha
    subst ha
    cases h
    exact .inl ⟨a, rest, hs, rfl⟩
  · rw [hk] at h; cases h; exact .inr rfl
  · rw [hk] at h; exact absurd h nofun

theorem processWrite_not_fault (s : State) (f : Fault) : processWrite s ≠ .fault f := by
  unfold processWrite
  rcases callHost_cases .write writeAnswer s (fun w s => finish w s) with
    ⟨x, rest, a, -, -, hk⟩ | ⟨-, hk⟩ | ⟨x, rest, -, -, -, hk⟩ <;> rw [hk] <;> nofun

/-- R101: all that steps 3 to 6 can do when they answer a next state. -/
theorem processData_next {r : Word} {data : List Byte} {s t : State} (h : processData r data s = .next t) :
    readAnswerWf r data = true ∧
    ((r.toInt ≤ 0 ∧ t = deliver r s) ∨
     (¬ r.toInt ≤ 0 ∧ ∃ m u b, memWrite s.buf 0 data = .ok m ∧
        sampleLoop (samplesIn r) 0 (acceptRead r m s) = .ok u ∧
        memRead u.buf 0 Config.bufSize = .ok b ∧
        processWrite { u with blocks := u.blocks ++ [b] } = .next t)) := by
  unfold processData at h
  split at h
  · rename_i hwf
    refine ⟨hwf, ?_⟩
    split at h
    · rename_i hr
      cases h
      exact .inl ⟨hr, rfl⟩
    · rename_i hr
      obtain ⟨m, hm, h⟩ := orFault_next h
      obtain ⟨u, hu, h⟩ := orFault_next h
      obtain ⟨b, hb, h⟩ := orFault_next h
      exact .inr ⟨hr, m, u, b, hm, hu, hb, h⟩
  · exact absurd h nofun

/-- R107, R109, R111: with the duty kept and the buffer allocated, steps 3 to 6 reach the HostWrite call
whenever something was read. -/
theorem processData_reaches_write {r : Word} {data : List Byte} {s : State}
    (hwf : readAnswerWf r data = true) (hr : ¬ r.toInt ≤ 0) (ha : Memory.allocated s.buf = true) :
    ∃ u b, sampleLoop (samplesIn r) 0 (acceptRead r (writeBytes s.buf 0 data) s) = .ok u ∧
      memRead u.buf 0 Config.bufSize = .ok b ∧
      processData r data s = processWrite { u with blocks := u.blocks ++ [b] } := by
  obtain ⟨-, -, h128, hlen⟩ := readAnswer_bounds hwf hr
  have hle : 0 + data.length ≤ Config.bufSize := by unfold Config.bufSize; omega
  have ha' : Memory.allocated (acceptRead r (writeBytes s.buf 0 data) s).buf = true :=
    allocated_writeBytes data ha 0
  obtain ⟨u, hu⟩ := sampleLoop_completes ha' (samplesIn_le h128)
  obtain ⟨b, hb, -, -⟩ := memRead_ok ((sampleLoop_ok hu).2.2.1 ha')
    (addr := 0) (n := Config.bufSize) (Nat.le_refl _)
  refine ⟨u, b, hu, hb, ?_⟩
  unfold processData sendBlock
  rw [if_pos hwf, if_neg hr, memWrite_of_le hle, orFault_ok, hu, orFault_ok, hb, orFault_ok]

/-- All step 2 can do: go on with the answer, wait for it, or refuse another. -/
theorem processRead_cases (s : State) :
    (∃ r data rest, s.inputs = .read r data :: rest ∧
      processRead s = processData r data { s with inputs := rest, waiting := none }) ∨
    (Unanswered s.inputs ∧ processRead s = .next { s with waiting := some .read }) ∨
    processRead s = .refused .strayAnswer := by
  unfold processRead
  rcases callHost_cases .read readAnswer s (fun a s => processData a.1 a.2 s) with
    ⟨x, rest, a, hs, ha, hk⟩ | ⟨hs, hk⟩ | ⟨x, rest, -, -, -, hk⟩
  · rw [readAnswer_eq_some] at ha
    subst ha
    exact .inl ⟨a.1, a.2, rest, hs, hk⟩
  · refine .inr (.inl ⟨?_, hk⟩)
    rcases hs with hs | ⟨x, rest, hs, -, hx⟩
    · rw [hs]; trivial
    · rw [hs]; exact hx
  · exact .inr (.inr hk)

/-! ### OPEN -/

/-- R43, R85: all the allocation can do, always at once. -/
theorem openAlloc_eq (rate ch : Word) (s : State) :
    openAlloc rate ch s = .next
      (if s.answers.alloc then deliver Config.ok (openWith rate ch (writeBytes s.buf 0 zeroBlock) s)
       else deliver Config.errNoMem (setLife .failed s)) := by
  unfold openAlloc
  cases s.answers.alloc
  · rfl
  · rw [if_pos rfl, if_pos rfl, memWrite_of_le (by unfold zeroBlock Config.bufSize; simp)]; rfl

/-- R85, R129: all OPEN's body can do: a next state, at once, by the validation of the pair and by the
allocation. -/
theorem openFormat_cases (s : State) :
    ((fmtVRate (chosenPair s.answers.rate s.answers.ch s).1 = true ∧
      fmtVCh (chosenPair s.answers.rate s.answers.ch s).2 = true) ∧
      ((s.answers.alloc = true ∧ openFormat s = .next (deliver Config.ok
          (openWith (chosenPair s.answers.rate s.answers.ch s).1 (chosenPair s.answers.rate s.answers.ch s).2
            (writeBytes s.buf 0 zeroBlock) s))) ∨
       (s.answers.alloc = false ∧ openFormat s = .next (deliver Config.errNoMem (setLife .failed s))))) ∨
    ((fmtVRate (chosenPair s.answers.rate s.answers.ch s).1 = false ∨
      fmtVCh (chosenPair s.answers.rate s.answers.ch s).2 = false) ∧
      openFormat s = .next (deliver Config.errInvalidArg (setLife .failed s))) := by
  unfold openFormat
  simp only [openAlloc_eq]
  cases hr : fmtVRate (chosenPair s.answers.rate s.answers.ch s).1
  · exact .inr ⟨.inl rfl, rfl⟩
  · cases hc : fmtVCh (chosenPair s.answers.rate s.answers.ch s).2
    · exact .inr ⟨.inr rfl, rfl⟩
    · cases ha : s.answers.alloc
      · exact .inl ⟨⟨rfl, rfl⟩, .inr ⟨rfl, rfl⟩⟩
      · exact .inl ⟨⟨rfl, rfl⟩, .inl ⟨rfl, rfl⟩⟩

/-- R129: OPEN's body ends at once, with a next state in which nothing waits. -/
theorem openFormat_next (s : State) :
    ∃ t, openFormat s = .next t ∧ t.waiting = none ∧ t.inputs = s.inputs ∧ t.answers = s.answers := by
  rcases openFormat_cases s with ⟨-, ⟨-, h⟩ | ⟨-, h⟩⟩ | ⟨-, h⟩ <;> exact ⟨_, h, rfl, rfl, rfl⟩

end Sys2Proof.Machine
end

