-- ==== Sys2Proof/Laws/Exec.lean ====
section
/-! SUPPORT. What each command can do: its body where it is legal and alone, and all a next state of it can be. -/

namespace Sys2Proof.Machine

/-! ### A legal command runs its body -/

theorem exec_configure_eq {s : State} (rate ch : Word) (hw : s.waiting = none) (hl : s.life ≠ .destroyed) :
    exec (.configure rate ch) s =
      if rate = s.fmtRate ∧ ch = s.fmtCh then finish Config.ok s
      else if fmtVRate rate && fmtVCh ch then finish Config.ok (setFmt rate ch s)
      else raise .invalidArgument s :=
  issue_legal (i := .configure rate ch) (fun s =>
    if rate = s.fmtRate ∧ ch = s.fmtCh then finish Config.ok s
    else if fmtVRate rate && fmtVCh ch then finish Config.ok (setFmt rate ch s)
    else raise .invalidArgument s) hw (by simp [legal, hl])

theorem exec_openStream_eq {s : State} (hw : s.waiting = none) (hl : s.life = .created) :
    exec .openStream s = openFormat s :=
  issue_legal (i := .openStream) openFormat hw (by simp [legal, hl])

theorem exec_process_eq {s : State} (hw : s.waiting = none) (hl : s.life = .opened) :
    exec .process s = if s.eos then finish 0#32 s else processRead s :=
  issue_legal (i := .process) (fun s => if s.eos then finish 0#32 s else processRead s) hw (by simp [legal, hl])

theorem exec_closeStream_eq {s : State} (hw : s.waiting = none) (hl : s.life = .opened ∨ s.life = .failed) :
    exec .closeStream s = .next (deliver Config.ok (setLife .closed (releaseBuffer s))) :=
  issue_legal (i := .closeStream) (fun s => finish Config.ok (setLife .closed (releaseBuffer s))) hw (by simp [legal, hl])

theorem exec_destroy_eq {s : State} (hw : s.waiting = none) (hl : s.life = .closed ∨ s.life = .failed) :
    exec .destroy s = .next (deliver Config.ok (setLife .destroyed (unspecifyRegisters s))) :=
  issue_legal (i := .destroy) (fun s => finish Config.ok (setLife .destroyed (unspecifyRegisters s))) hw (by simp [legal, hl])

/-- A command the lifecycle state does not allow is refused. -/
theorem exec_notLegal {i : Instr} {s : State} (hw : s.waiting = none) (hl : legal i s.life = false) :
    exec i s = .refused (.notLegal s.life) := by
  cases i with
  | configure rate ch => unfold exec execConfigure; exact issue_notLegal _ hw hl
  | openStream => unfold exec execOpenStream; exact issue_notLegal _ hw hl
  | process => unfold exec execProcess; exact issue_notLegal _ hw hl
  | closeStream => unfold exec execCloseStream; exact issue_notLegal _ hw hl
  | destroy => unfold exec execDestroy; exact issue_notLegal _ hw hl

/-! ### All a next state can be -/

theorem exec_configure_next {s t : State} {rate ch : Word} (h : exec (.configure rate ch) s = .next t) :
    s.waiting = none ∧ s.life ≠ .destroyed ∧
    ((rate = s.fmtRate ∧ ch = s.fmtCh ∧ t = deliver Config.ok s) ∨
     (fmtVRate rate = true ∧ fmtVCh ch = true ∧ t = deliver Config.ok (setFmt rate ch s)) ∨
     t = deliver Config.errInvalidArg s) := by
  change issue (.configure rate ch) s (fun s =>
    if rate = s.fmtRate ∧ ch = s.fmtCh then finish Config.ok s
    else if fmtVRate rate && fmtVCh ch then finish Config.ok (setFmt rate ch s)
    else raise .invalidArgument s) = .next t at h
  obtain ⟨hw, hl, hb⟩ := issue_next h
  refine ⟨hw, by simpa [legal] using hl, ?_⟩
  split at hb
  · rename_i hid
    cases hb
    exact .inl ⟨hid.1, hid.2, rfl⟩
  · split at hb
    · rename_i hv
      rw [Bool.and_eq_true] at hv
      cases hb
      exact .inr (.inl ⟨hv.1, hv.2, rfl⟩)
    · cases hb
      exact .inr (.inr rfl)

theorem exec_openStream_next {s t : State} (h : exec .openStream s = .next t) :
    s.waiting = none ∧ s.life = .created ∧ openFormat s = .next t := by
  change issue .openStream s openFormat = .next t at h
  obtain ⟨hw, hl, hb⟩ := issue_next h
  exact ⟨hw, by simpa [legal] using hl, hb⟩

theorem exec_process_next {s t : State} (h : exec .process s = .next t) :
    s.waiting = none ∧ s.life = .opened ∧
    ((s.eos = true ∧ t = deliver 0#32 s) ∨ (s.eos = false ∧ processRead s = .next t)) := by
  change issue .process s (fun s => if s.eos then finish 0#32 s else processRead s) = .next t at h
  obtain ⟨hw, hl, hb⟩ := issue_next h
  refine ⟨hw, by simpa [legal] using hl, ?_⟩
  split at hb
  · rename_i he
    cases hb
    exact .inl ⟨he, rfl⟩
  · rename_i he
    exact .inr ⟨by simpa using he, hb⟩

theorem exec_closeStream_next {s t : State} (h : exec .closeStream s = .next t) :
    s.waiting = none ∧ (s.life = .opened ∨ s.life = .failed) ∧
    t = deliver Config.ok (setLife .closed (releaseBuffer s)) := by
  change issue .closeStream s (fun s => finish Config.ok (setLife .closed (releaseBuffer s))) = .next t at h
  obtain ⟨hw, hl, hb⟩ := issue_next h
  cases hb
  exact ⟨hw, by simpa [legal] using hl, rfl⟩

theorem exec_destroy_next {s t : State} (h : exec .destroy s = .next t) :
    s.waiting = none ∧ (s.life = .closed ∨ s.life = .failed) ∧
    t = deliver Config.ok (setLife .destroyed (unspecifyRegisters s)) := by
  change issue .destroy s (fun s =>
    finish Config.ok (setLife .destroyed (unspecifyRegisters s))) = .next t at h
  obtain ⟨hw, hl, hb⟩ := issue_next h
  cases hb
  exact ⟨hw, by simpa [legal] using hl, rfl⟩

/-- No command but a PROCESS with something to filter can fault. -/
theorem exec_fault {i : Instr} {s : State} {f : Fault} (h : exec i s = .fault f) :
    i = .process ∧ s.life = .opened ∧ s.eos = false ∧ processRead s = .fault f := by
  cases i with
  | configure rate ch =>
    change issue (.configure rate ch) s (fun s =>
      if rate = s.fmtRate ∧ ch = s.fmtCh then finish Config.ok s
      else if fmtVRate rate && fmtVCh ch then finish Config.ok (setFmt rate ch s)
      else raise .invalidArgument s) = .fault f at h
    obtain ⟨-, -, hb⟩ := issue_fault h
    split at hb
    · exact absurd hb nofun
    · split at hb <;> exact absurd hb nofun
  | openStream =>
    change issue .openStream s openFormat = .fault f at h
    obtain ⟨t, ht, -⟩ := openFormat_next s
    exact absurd (ht.symm.trans (issue_fault h).2.2) nofun
  | process =>
    change issue .process s (fun s => if s.eos then finish 0#32 s else processRead s) = .fault f at h
    obtain ⟨-, hl, hb⟩ := issue_fault h
    split at hb
    · exact absurd hb nofun
    · rename_i he
      exact ⟨rfl, by simpa [legal] using hl, by simpa using he, hb⟩
  | closeStream =>
    change issue .closeStream s (fun s =>
      finish Config.ok (setLife .closed (releaseBuffer s))) = .fault f at h
    exact absurd (issue_fault h).2.2 nofun
  | destroy =>
    change issue .destroy s (fun s =>
      finish Config.ok (setLife .destroyed (unspecifyRegisters s))) = .fault f at h
    exact absurd (issue_fault h).2.2 nofun

end Sys2Proof.Machine
end

