-- ==== Sys2Proof/Laws/PerInstr.lean ====
section
/-! SUPPORT. Laws stated per instruction (LAWS.json). -/

namespace Sys2Proof.Laws.EncodingRow

/-- R58, spec/opcode_table.json: the encoded word lies in the instruction's own row of the opcode table. -/
def Statement (i : Instr) : Prop := encode i &&& opcodeMask = i.matchWord

/-- The mask keeps the opcode and nothing else. -/
theorem packWord_and_mask (op : BitVec 3) (rate ch : Word) :
    packWord op rate ch &&& opcodeMask = packWord op 0#32 0#32 := by
  have hm : opcodeMask = packWord 7#3 0#32 0#32 := by decide
  have h7 : ∀ j, j < 3 → (7#3).getLsbD j = true := by decide
  rw [hm]
  apply BitVec.eq_of_getLsbD_eq
  intro i hi
  rw [BitVec.getLsbD_and, packWord_getLsbD, packWord_getLsbD, packWord_getLsbD]
  by_cases h1 : i < 32
  · simp [h1]
  · by_cases h2 : i < 64
    · simp [h1, h2]
    · simp [h1, h2, h7 (i - 64) (by omega)]

theorem configure (rate ch : Word) : Statement (.configure rate ch) := by
  unfold Statement
  change packWord 0#3 rate ch &&& opcodeMask = packWord 0#3 0#32 0#32
  exact packWord_and_mask 0#3 rate ch

theorem openStream : Statement .openStream := by unfold Statement; decide

theorem process : Statement .process := by unfold Statement; decide

theorem closeStream : Statement .closeStream := by unfold Statement; decide

theorem destroy : Statement .destroy := by unfold Statement; decide

end Sys2Proof.Laws.EncodingRow
end

