-- ==== Sys2Proof/Laws/Safety.lean ====
section
/-! SUPPORT. The terms of Safety.lean: samples one after another, and correct rounding of a quotient whose two parts have a
common factor. -/

namespace Sys2Proof.Safety

open Sys2Proof.Machine

/-! ### Samples one after another -/

/-- R99: the machine's run for one sample is the written-out one. -/
theorem filterOne_eq (v : Sample) (s : State) : filterOne v s = filterSample v s := by
  rw [filterSample_eq]
  have hs : (0x46FFFE00#32 : F32) = Config.scale := rfl
  unfold filterOne smpNorm smpRescale useDraws
  rw [hs]

@[simp] theorem filterAll_nil (s : State) : filterAll [] s = ([], s) := rfl

theorem filterAll_cons (v : Sample) (vs : List Sample) (s : State) :
    filterAll (v :: vs) s =
      ((filterSample v s).1 :: (filterAll vs (filterSample v s).2).1, (filterAll vs (filterSample v s).2).2) := by
  rw [← filterOne_eq]; rfl

@[simp] theorem filterAll_length (vs : List Sample) (s : State) : (filterAll vs s).1.length = vs.length := by
  induction vs generalizing s with
  | nil => rfl
  | cons v vs ih => rw [filterAll_cons, List.length_cons, List.length_cons, ih]

@[simp] theorem samplesOf_cons (hi lo : Byte) (bs : List Byte) :
    samplesOf (hi :: lo :: bs) = joinBytes hi lo :: samplesOf bs := rfl

@[simp] theorem bytesOf_cons (p : Sample) (ps : List Sample) :
    bytesOf (p :: ps) = highByte p :: lowByte p :: bytesOf ps := rfl

@[simp] theorem bytesOf_length (ps : List Sample) : (bytesOf ps).length = 2 * ps.length := by
  induction ps with
  | nil => rfl
  | cons p ps ih => rw [bytesOf_cons, List.length_cons, List.length_cons, List.length_cons, ih]; omega

/-! ### Correct rounding -/

/-- A common factor of the two parts of the exact value does not matter. -/
theorem roundsTo_of_scaled {num : Int} {den k : Nat} {r : F32} (hk : 0 < k)
    (h : RoundsTo (num * k) (den * k) r) : RoundsTo num den r := by
  have hk' : (0 : Int) < k := by exact_mod_cast hk
  have habs : ∀ v : Int, (v * k).natAbs = v.natAbs * k := fun v => by rw [Int.natAbs_mul]; rfl
  have hdist : ∀ v : Int, v * ((den * k : Nat) : Int) - num * k = (v * den - num) * k := fun v => by
    push_cast; ring
  have hneg : num * k < 0 ↔ num < 0 := by constructor <;> intro _ <;> nlinarith
  unfold RoundsTo at *
  generalize (2 ^ 277 - 2 ^ 252 : Nat) = top at *
  have hle : top * (den * k) ≤ num.natAbs * k ↔ top * den ≤ num.natAbs := by
    rw [← mul_assoc]; exact Nat.mul_le_mul_right_iff hk
  rw [habs] at h
  split at h
  · rename_i hbig
    rw [if_pos (hle.mp hbig), ← hneg]
    exact h
  · rename_i hbig
    rw [if_neg fun hc => hbig (hle.mpr hc)]
    refine ⟨h.1, fun c hc => ?_⟩
    have hn := h.2 c hc
    simp only [hdist, habs] at hn
    exact ⟨Nat.le_of_mul_le_mul_right hn.1 hk, fun hv he => hn.2 hv (by rw [he])⟩

end Sys2Proof.Safety
end

