-- ==== Sys2Proof/Laws/Step.lean ====
section
/-! SUPPORT. What a step can do, by the host's next input. -/

namespace Sys2Proof.Machine

theorem step_idle {s : State} (h : s.inputs = []) : step s = .next s := by
  unfold step takeInput; rw [h]

theorem step_command {s : State} {w : CmdWord} {rest : List HostInput} {i : Instr}
    (h : s.inputs = .command w :: rest) (hd : decode w = .ok i) :
    step s = exec i { s with inputs := rest } := by
  unfold step takeInput; rw [h]; simp only [runWord, hd]

theorem step_reserved {s : State} {w : CmdWord} {rest : List HostInput} {op : BitVec 3}
    (h : s.inputs = .command w :: rest) (hd : decode w = .error (.reservedOpcode op)) :
    step s = .refused (.reservedOpcode op) := by
  unfold step takeInput; rw [h]; simp only [runWord, hd]

theorem step_reset {s : State} {p : ResetParams} {rest : List HostInput} (h : s.inputs = .reset p :: rest) :
    step s = .next (applyReset p { s with inputs := rest }) := by
  unfold step takeInput; rw [h]

theorem step_format {s : State} {hr hc : Word} {rest : List HostInput} (h : s.inputs = .format hr hc :: rest) :
    step s = .next (setFormatAnswer hr hc { s with inputs := rest }) := by
  unfold step takeInput; rw [h]

theorem step_alloc {s : State} {ok : Bool} {rest : List HostInput} (h : s.inputs = .alloc ok :: rest) :
    step s = .next (setAllocAnswer ok { s with inputs := rest }) := by
  unfold step takeInput; rw [h]

theorem step_answer {s : State} {x : HostInput} {rest : List HostInput} (h : s.inputs = x :: rest)
    (hx : isAnswer x = true) : step s = takeAnswer s := by
  unfold step takeInput; rw [h]
  cases x <;> first | rfl | exact absurd hx nofun

/-- All a step can do. -/
theorem step_cases (s : State) :
    (s.inputs = [] ∧ step s = .next s) ∨
    (∃ p rest, s.inputs = .reset p :: rest ∧ step s = .next (applyReset p { s with inputs := rest })) ∨
    (∃ hr hc rest, s.inputs = .format hr hc :: rest ∧
      step s = .next (setFormatAnswer hr hc { s with inputs := rest })) ∨
    (∃ ok rest, s.inputs = .alloc ok :: rest ∧
      step s = .next (setAllocAnswer ok { s with inputs := rest })) ∨
    (∃ w rest i, s.inputs = .command w :: rest ∧ decode w = .ok i ∧
      step s = exec i { s with inputs := rest }) ∨
    (∃ w rest op, s.inputs = .command w :: rest ∧ decode w = .error (.reservedOpcode op) ∧
      step s = .refused (.reservedOpcode op)) ∨
    (∃ x rest c, s.inputs = x :: rest ∧ isAnswer x = true ∧ s.waiting = some c ∧ step s = resume c s) ∨
    (∃ x rest, s.inputs = x :: rest ∧ isAnswer x = true ∧ s.waiting = none ∧
      step s = .refused .strayAnswer) := by
  have answer : ∀ x rest, s.inputs = x :: rest → isAnswer x = true →
      (∃ x rest c, s.inputs = x :: rest ∧ isAnswer x = true ∧ s.waiting = some c ∧ step s = resume c s) ∨
      (∃ x rest, s.inputs = x :: rest ∧ isAnswer x = true ∧ s.waiting = none ∧
        step s = .refused .strayAnswer) := by
    intro x rest hs hx
    have h := step_answer hs hx
    unfold takeAnswer at h
    cases hw : s.waiting with
    | none => rw [hw] at h; exact .inr ⟨x, rest, hs, hx, rfl, h⟩
    | some c => rw [hw] at h; exact .inl ⟨x, rest, c, hs, hx, rfl, h⟩
  cases hs : s.inputs with
  | nil => exact .inl ⟨rfl, step_idle hs⟩
  | cons x rest =>
    refine .inr ?_
    cases x with
    | command w =>
      cases hd : decode w with
      | ok i => exact .inr (.inr (.inr (.inl ⟨w, rest, i, rfl, hd, step_command hs hd⟩)))
      | error e =>
        cases e
        exact .inr (.inr (.inr (.inr (.inl ⟨w, rest, _, rfl, hd, step_reserved hs hd⟩))))
    | reset p => exact .inl ⟨p, rest, rfl, step_reset hs⟩
    | format hr hc => exact .inr (.inl ⟨hr, hc, rest, rfl, step_format hs⟩)
    | alloc ok => exact .inr (.inr (.inl ⟨ok, rest, rfl, step_alloc hs⟩))
    | read r d => exact .inr (.inr (.inr (.inr (.inr (hs ▸ answer _ rest hs rfl)))))
    | write w => exact .inr (.inr (.inr (.inr (.inr (hs ▸ answer _ rest hs rfl)))))

@[simp] theorem withFetchWord_inputs (s : State) (nbits w : Nat) :
    (s.withFetchWord nbits w).inputs = .command (tableWord nbits w) :: s.inputs := rfl

@[simp] theorem withFetchWord_waiting (s : State) (nbits w : Nat) :
    (s.withFetchWord nbits w).waiting = none := rfl

/-- The word placed is the word the next step decodes. -/
theorem decode_of_decodeTableWord {nbits w : Nat} {i : Instr} (h : decodeTableWord nbits w = some i) :
    decode (tableWord nbits w) = .ok i := by
  unfold decodeTableWord at h
  split at h
  · rename_i j hj; cases h; exact hj
  · exact absurd h nofun

end Sys2Proof.Machine
end

