-- ==== Sys2Proof/Tests/Slice0.lean ====
section
/-! SUPPORT. Tests, with expected values from spec/95_test_vectors.md (cited by V and P numbers), and for every
statement that has hypotheses a state and operands that meet them together. -/

-- The kernel's evaluations one after another: as many threads as tests would not fit the memory limit.
set_option Elab.async false

namespace Sys2Proof.Tests

open Sys2Proof.Machine Sys2Proof.Safety

/-! ### Small states -/

/-- The coefficients "ID" of spec/95_test_vectors.md. -/
def idStage : Coeffs := ⟨0x3F800000#32, 0#32, 0#32, 0#32, 0#32⟩

/-- The coefficients "T1". -/
def t1Stage : Coeffs :=
  ⟨0x3F000000#32, 0x3E800000#32, 0x3E000000#32, 0xBF000000#32, 0x3E800000#32⟩

/-- "T1, ID x 8". -/
def t1Table : CoefTable := #v[t1Stage, idStage, idStage, idStage, idStage, idStage, idStage, idStage, idStage]

/-- "ID x 9". -/
def idTable : CoefTable := Vector.replicate 9 idStage

/-- A state in a given lifecycle state, with the host's next inputs. -/
def at_ (l : Life) (inputs : List HostInput) : State := { State.reset with life := l, inputs := inputs }

/-- A created element, with what the host answers OPEN. -/
def offered (rate ch : Word) (alloc : Bool) : State :=
  { at_ .created [] with answers := { rate := rate, ch := ch, alloc := alloc } }

/-- The buffer after OPEN. -/
@[irreducible] def zeroBuf : Memory := (List.range 128).map fun a => (a, 0#8)

/-- An opened element, its buffer all zero. -/
def openedWith (table : CoefTable) (inputs : List HostInput) : State :=
  { at_ .opened inputs with coef := table, bufValid := true, buf := zeroBuf }

/-- An opened element that has met the end of its stream. -/
def endedWith (inputs : List HostInput) : State := { openedWith idTable inputs with eos := true }

/-- The next state meets a check. -/
def nextMeets (o : Out) (p : State → Bool) : Bool :=
  match o with
  | .next t => p t
  | _ => false

/-- The step was refused, and why. -/
def refusedAs (o : Out) (r : Refusal) : Bool :=
  match o with
  | .refused q => decide (q = r)
  | _ => false

/-! ### Decoding: words written out from R57 and R58 -/

theorem test_decode_configure : decode 0x00000AC4400000002#67 = .ok (.configure 44100#32 2#32) := by decide

theorem test_decode_configure_negative :
    decode 0x0FFFFFFFF00000001#67 = .ok (.configure 0xFFFFFFFF#32 1#32) := by decide

theorem test_decode_open : decode 0x10000000000000000#67 = .ok .openStream := by decide

theorem test_decode_process_ignores_operands : decode 0x2FFFFFFFFFFFFFFFF#67 = .ok .process := by decide

theorem test_decode_close : decode 0x30000000000000000#67 = .ok .closeStream := by decide

theorem test_decode_destroy : decode 0x40000000000000000#67 = .ok .destroy := by decide

theorem test_decode_reserved : decode 0x50000000000000000#67 = .error (.reservedOpcode 5#3) := by decide

theorem test_encode_configure : encode (.configure 11025#32 1#32) = 0x000002B1100000001#67 := by decide

theorem test_decodeTableWord : decodeTableWord 72 0x30000000000000000 = some .closeStream := by decide

/-! ### The one check of WellFormed (R40, R44): ill-formed HostRead answers are refused -/

theorem test_wf_refuses_130 : HostInput.wf (.read 130#32 (List.replicate 130 0#8)) = false := by decide +kernel

theorem test_wf_refuses_a_missing_byte : HostInput.wf (.read 4#32 [0#8, 1#8, 2#8]) = false := by decide

theorem test_wf_refuses_bytes_without_a_count : HostInput.wf (.read 0xFFFFFFFB#32 [0#8]) = false := by decide

theorem test_wf_accepts_a_full_read :
    HostInput.wf (.read 128#32 (List.replicate 128 0#8)) = true := by decide +kernel

/-! ### Sample conversion -/

/-- V5: the byte order matters. -/
theorem test_smpDecode_v5 :
    smpDecode 4 { State.reset with buf := [(4, 0x00#8), (5, 0x80#8)] } = .ok 128#16 := by decide

/-- The worked example of R93. -/
theorem test_smpEncode_r93 :
    (smpEncode 6 0xFC00#16 { State.reset with buf := [] }).map (fun s => s.buf) = .ok [(6, 0xFC#8), (7, 0x00#8)] := by decide

/-- V13: the one input beyond -1. -/
theorem test_smpNorm_v13 : smpNorm 0 0x8000#16 = 0xBF800100#32 := by decide +kernel

/-- V14. -/
theorem test_smpNorm_v14 : smpNorm 0 4660#16 = 0x3E11A123#32 := by decide +kernel

/-- V16: toward zero, not toward minus infinity. -/
theorem test_smpRescale_v16 : smpRescale 0 0xBF000000#32 = 0xC001#16 := by decide +kernel

/-- V17, V18, V21 and the values after V24: the edges of the range of R95. -/
theorem test_rescale_range :
    (f2iInRange (fmul 0 0x3F8000FF#32 Config.scale) && !f2iInRange (fmul 0 0x3F800100#32 Config.scale) &&
      f2iInRange (fmul 0 0xBF8001FF#32 Config.scale) && !f2iInRange (fmul 0 0xBF800200#32 Config.scale) &&
      !f2iInRange 0x7F800000#32 && smpRescale 0 0xBF800180#32 == 0x8000#16) = true := by decide +kernel

/-! ### BQ.APPLY and CHAIN.APPLYALL -/

/-- V33: a tie with an odd lower neighbour rounds up to even. -/
theorem test_bq_v33 :
    bqOutput 0 ⟨0x3F800000#32, 0x3F800000#32, 0#32, 0#32, 0#32⟩
      ⟨0x33800000#32, 0#32, 0#32, 0#32⟩ 0x3F800001#32
      = 0x3F800002#32 := by decide +kernel

/-- V34: the sum associates from the left. -/
theorem test_bq_v34 :
    bqOutput 0 ⟨0x3F800000#32, 0x3F800000#32, 0x3F800000#32, 0#32, 0#32⟩
      ⟨0x33800000#32, 0x33800000#32, 0#32, 0#32⟩ 0x3F800000#32
      = 0x3F800000#32 := by decide +kernel

/-- V35: no fused multiply-add. -/
theorem test_bq_v35 :
    bqOutput 0 ⟨0x3F800800#32, 0xBF800000#32, 0#32, 0#32, 0#32⟩
      ⟨0x3F801000#32, 0#32, 0#32, 0#32⟩ 0x3F800800#32
      = 0x00000000#32 := by decide +kernel

/-- V36, V39, V40: overflow, ties to even among subnormal numbers, a negative zero. -/
theorem test_bq_v36_v39_v40 :
    (bqOutput 0 ⟨0x7F7FFFFF#32, 0#32, 0#32, 0#32, 0#32⟩ silentHistory
        0xBF800100#32 == 0xFF800000#32 &&
      bqOutput 0 ⟨3#32, 0#32, 0#32, 0#32, 0#32⟩ silentHistory
        0x3F000000#32 == 2#32 &&
      bqOutput 0 ⟨0xBF800000#32, 0xBF800000#32, 0xBF800000#32, 0x3F800000#32, 0x3F800000#32⟩ silentHistory 0#32 == 0x80000000#32) = true := by decide +kernel

/-- The feedback path alone (after V40): the feedback terms are subtracted. -/
theorem test_bq_feedback :
    bqOutput 0 ⟨0#32, 0#32, 0#32, 0xBF000000#32, 0x3E800000#32⟩
      ⟨0#32, 0#32, 0x3F800000#32, 0x3F800000#32⟩ 0#32
      = 0x3E800000#32 := by decide +kernel

/-- V42: T1 in stage 0. -/
theorem test_chain_v42 :
    (let r := chainApplyAll 0x3F000100#32 (openedWith t1Table [])
     decide (r.1 = 0x3E800100#32 ∧
      readHist r.2 0 = ⟨0x3F000100#32, 0#32, 0x3E800100#32, 0#32⟩ ∧
      readHist r.2 8 = ⟨0x3E800100#32, 0#32, 0x3E800100#32, 0#32⟩))
      = true := by decide +kernel

/-! ### CONFIGURE -/

/-- V47. -/
theorem test_configure_v47 :
    nextMeets (step (State.reset.withFetchWord 72 0x0AC4400000002)) (fun t =>
      decide (t.fmtRate = 44100#32 ∧ t.fmtCh = 2#32 ∧ t.results = [0#32])) = true := by decide +kernel

/-- V49: a valid rate does not get stored alone. -/
theorem test_configure_v49 :
    nextMeets (exec (.configure 44100#32 3#32) State.reset) (fun t =>
      decide (t.fmtRate = 48000#32 ∧ t.fmtCh = 1#32 ∧ t.results = [1#32])) = true := by decide +kernel

/-! ### OPEN -/

/-- V56: one value zero, so no override. -/
theorem test_open_v56 :
    nextMeets (exec .openStream (offered 44100#32 0#32 true)) (fun t =>
      decide (t.life = .opened ∧ t.fmtRate = 48000#32 ∧ t.fmtCh = 1#32 ∧ t.bufValid = true ∧
        readByte t.buf 127 = some 0#8 ∧ t.results = [0#32])) = true := by decide +kernel

/-- V58: the host's invalid pair is not stored; InvalidArgument comes before OutOfMemory. -/
theorem test_open_v58 :
    nextMeets (exec .openStream (offered 8000#32 1#32 false)) (fun t =>
      decide (t.life = .failed ∧ t.fmtRate = 48000#32 ∧ t.waiting = none ∧ t.results = [1#32]))
      = true := by decide +kernel

/-- V54, as the first command after reset: OPEN completes in one step. -/
theorem test_open_after_reset :
    nextMeets (step (State.reset.withFetchWord 72 0x10000000000000000)) (fun t =>
      decide (t.life = .opened ∧ t.waiting = none ∧ t.results = [0#32])) = true := by decide +kernel

/-! ### PROCESS -/

/-- The first PROCESS of P2: three samples, a short read. -/
theorem test_process_p2 :
    nextMeets (exec .process (openedWith idTable
        [.read 6#32 [0x12#8, 0x34#8, 0xFF#8, 0xFF#8, 0x80#8, 0x00#8], .write 128#32])) (fun t =>
      decide (t.results = [128#32] ∧ t.eos = true ∧ t.cnt = 6#32 ∧
        t.blocks = [[0x12#8, 0x34#8, 0xFF#8, 0xFF#8, 0x80#8, 0x00#8] ++ List.replicate 122 0#8] ∧
        readHist t 8 = ⟨0xBF800100#32, 0xB8000100#32, 0xBF800100#32, 0xB8000100#32⟩)) = true := by decide +kernel

/-- The second PROCESS of P4: the recurrence goes on across blocks, and the stale tail is sent again. -/
theorem test_process_p4 :
    nextMeets (exec .process { openedWith t1Table [.read 8#32 (List.replicate 8 0#8), .write 128#32] with
        buf := writeByte zeroBuf 126 0x20#8
        z := (Vector.replicate 9 ⟨0x3E800100#32, 0#32, 0x3E800100#32, 0#32⟩).set 0
            ⟨0x3F000100#32, 0#32, 0x3E800100#32, 0#32⟩ }) (fun t =>
      decide (t.eos = true ∧ t.blocks = [[0x20#8, 0x00#8, 0x10#8, 0x00#8, 0x00#8, 0x00#8, 0xFC#8, 0x00#8]
        ++ List.replicate 118 0#8 ++ [0x20#8, 0x00#8]] ∧
        readHist t 0 = ⟨0#32, 0#32, 0xBD000100#32, 0#32⟩))
      = true := by decide +kernel

/-! ### CLOSE, DESTROY, refusals -/

/-- V61. -/
theorem test_close_v61 :
    nextMeets (exec .closeStream (openedWith idTable [])) (fun t =>
      decide (t.life = .closed ∧ t.bufValid = false ∧ t.fmtRate = 48000#32 ∧ t.results = [0#32]))
      = true := by decide +kernel

/-- V64. -/
theorem test_destroy_v64 :
    nextMeets (exec .destroy (at_ .failed [])) (fun t =>
      decide (t.life = .destroyed ∧ t.results = [0#32])) = true := by decide +kernel

/-- V65, V66, V67, V78. -/
theorem test_refusals :
    (refusedAs (exec .process State.reset) (.notLegal .created) &&
      refusedAs (exec .openStream (at_ .closed [])) (.notLegal .closed) &&
      refusedAs (step (State.reset.withFetchWord 72 0x50000000000000000)) (.reservedOpcode 5#3) &&
      refusedAs (exec .process (openedWith idTable [.read 130#32 (List.replicate 130 0#8)]))
        .readContract) = true := by decide +kernel

/-- P6: RESET while PROCESS waits at HostRead; the command delivers no result (U9). -/
theorem test_reset_while_waiting :
    nextMeets (step { openedWith idTable [.reset Config.defaultParams] with waiting := some .read }) (fun t =>
      decide (t.life = .created ∧ t.waiting = none ∧ t.results = [] ∧ t.bufValid = false)) = true := by
  decide +kernel

/-- U7: RESET, CLOSE and DESTROY leave free values at addresses 0 and 127, and no byte at 128. -/
theorem test_unspecified_u7 :
    (readByte State.reset.buf 0).isSome = true ∧
    nextMeets (exec .closeStream (openedWith idTable [])) (fun t =>
      (readByte t.buf 127).isSome && (readByte t.buf 128).isNone) = true ∧
    nextMeets (exec .destroy (at_ .closed [])) (fun t => (readByte t.buf 127).isSome) = true := by
  decide +kernel

/-! ### Witnesses: a state and operands that meet the hypotheses of each statement -/

theorem zeroBuf_wf : Memory.wf zeroBuf = true := by decide +kernel

theorem zeroBuf_allocated : Memory.allocated zeroBuf = true := by decide +kernel

/-- The invariant holds of an opened element, before and after the end of its stream. -/
theorem opened_inv {s : State} (hl : s.life = .opened) (hb : s.buf = zeroBuf) (hv : s.bufValid = true)
    (hr : s.fmtRate = 48000#32) (hc : s.fmtCh = 1#32) (hw : s.waiting = none) (hk : s.blocks = []) :
    Inv s where
  bufWf := hb ▸ zeroBuf_wf
  bufOpen := fun _ => by simp [hv, hl]
  bufHeld := hb ▸ zeroBuf_allocated
  fmtOpen := fun _ => by unfold FormatValid; rw [hr, hc]; decide
  quiet := fun h => by simp [hl] at h
  waitingFits := by unfold WaitingFits; rw [hw]; trivial
  blocksFull := by simp [hk]

theorem openedWith_inv (table : CoefTable) (inputs : List HostInput) : Inv (openedWith table inputs) :=
  opened_inv rfl rfl rfl rfl rfl rfl rfl

theorem endedWith_inv (inputs : List HostInput) : Inv (endedWith inputs) :=
  opened_inv rfl rfl rfl rfl rfl rfl rfl

theorem test_witness_StepRunsTheDecodedCommand :
    (at_ .created [.command 0x10000000000000000#67]).inputs = .command 0x10000000000000000#67 :: [] ∧
      decode 0x10000000000000000#67 = .ok .openStream ∧
      decodeTableWord 72 0x0AC4400000002 = some (.configure 44100#32 2#32) := by decide +kernel

theorem test_witness_DecodeAndEncodeAgree :
    decode 0x2FFFFFFFFFFFFFFFF#67 = .ok .process ∧
      decode 0x00000AC4400000002#67 = .ok (.configure 44100#32 2#32) := by decide +kernel

theorem test_witness_OpcodeAloneSelectsTheCommand :
    (0x0FFFFFFFFFFFFFFFF#67).toNat / 2 ^ 64 = 0 ∧ (0x10000000000000000#67).toNat / 2 ^ 64 = 1 ∧
      (0x2FFFFFFFFFFFFFFFF#67).toNat / 2 ^ 64 = 2 ∧ (0x30000000000000000#67).toNat / 2 ^ 64 = 3 ∧
      (0x4FFFFFFFFFFFFFFFF#67).toNat / 2 ^ 64 = 4 ∧ 5 ≤ (0x50000000000000000#67).toNat / 2 ^ 64 := by
  decide +kernel

theorem test_witness_ReservedOpcodesAreRefused :
    (at_ .created [.command 0x70000000000000000#67]).inputs = .command 0x70000000000000000#67 :: [] ∧
      5 ≤ (0x70000000000000000#67).toNat / 2 ^ 64 := by decide +kernel

theorem test_witness_NothingChangesWhileTheHostDoesNothing :
    State.reset.inputs = [] ∧
      (at_ .created [.format 44100#32 2#32]).inputs = .format 44100#32 2#32 :: [] ∧
      (at_ .created [.alloc false]).inputs = .alloc false :: [] := ⟨rfl, rfl, rfl⟩

theorem test_witness_ResetGivesEveryRegisterItsValue :
    (at_ .destroyed [.reset Config.defaultParams]).inputs = .reset Config.defaultParams :: [] := rfl

theorem test_witness_EveryStepKeepsTheInvariant :
    Inv (openedWith idTable [.command 0x30000000000000000#67]) ∧
      nextMeets (step (openedWith idTable [.command 0x30000000000000000#67])) (fun _ => true) = true :=
  ⟨openedWith_inv _ _, by decide +kernel⟩

theorem test_witness_NoStepFaults : Inv (openedWith t1Table [.command 0x20000000000000000#67]) :=
  openedWith_inv _ _

/-- Both sides: a step that goes on, and one that does not. -/
theorem test_witness_StepGoesOnExactlyWhenTheHostKeepsItsDuties :
    (Inv (openedWith idTable []) ∧ dutiesKept (openedWith idTable []) = true) ∧
      (Inv (openedWith idTable [.write 0#32]) ∧ dutiesKept (openedWith idTable [.write 0#32]) = false) :=
  ⟨⟨openedWith_inv _ _, by decide +kernel⟩, ⟨openedWith_inv _ _, by decide +kernel⟩⟩

/-- The arrow from Opened to Closed. -/
theorem test_witness_LifecycleFollowsItsArrows :
    Inv (openedWith idTable [.command 0x30000000000000000#67]) ∧
      nextMeets (step (openedWith idTable [.command 0x30000000000000000#67]))
        (fun t => decide (t.life = .closed)) = true :=
  ⟨openedWith_inv _ _, by decide +kernel⟩

theorem test_witness_CoefficientsAreNeverWritten :
    nextMeets (step (openedWith idTable [.command 0x30000000000000000#67]))
      (fun t => decide (t.life ≠ .destroyed)) = true ∧
    ∀ p rest, (openedWith idTable [.command 0x30000000000000000#67]).inputs ≠ .reset p :: rest :=
  ⟨by decide +kernel, nofun⟩

theorem test_witness_PassThroughRegistersAreNeverWritten :
    nextMeets (step (at_ .created [.command 0#67])) (fun t => decide (t.life ≠ .destroyed)) = true ∧
    ∀ p rest, (at_ .created [.command 0#67]).inputs ≠ .reset p :: rest :=
  ⟨by decide +kernel, nofun⟩

/-- One sample of 7FFF (V71) moves the history. -/
theorem test_witness_HistoryMovesOnlyWithABlock :
    Inv (openedWith idTable [.command 0x20000000000000000#67, .read 2#32 [0x7F#8, 0xFF#8], .write 128#32]) ∧
    nextMeets (step (openedWith idTable
        [.command 0x20000000000000000#67, .read 2#32 [0x7F#8, 0xFF#8], .write 128#32]))
      (fun t => decide (t.life = .opened) &&
        decide ((readHist t 0).inZ1 ≠ (readHist (openedWith idTable []) 0).inZ1)) = true ∧
    ∀ p rest, (openedWith idTable [.command 0x20000000000000000#67, .read 2#32 [0x7F#8, 0xFF#8],
      .write 128#32]).inputs ≠ .reset p :: rest :=
  ⟨openedWith_inv _ _, by decide +kernel, nofun⟩

theorem test_witness_EndOfStreamIsSticky :
    Inv (endedWith [.command 0x20000000000000000#67]) ∧
      nextMeets (step (endedWith [.command 0x20000000000000000#67]))
        (fun t => decide (t.life = .opened)) = true ∧
      (endedWith [.command 0x20000000000000000#67]).life = .opened ∧
      (endedWith [.command 0x20000000000000000#67]).eos = true :=
  ⟨endedWith_inv _, by decide +kernel, rfl, rfl⟩

theorem test_witness_AtMostOneResultAndOneBlockAStep :
    nextMeets (step (endedWith [.command 0x20000000000000000#67]))
      (fun t => decide (t.results = [0#32])) = true := by decide +kernel

theorem test_witness_NothingDependsOnTheByteCounter :
    nextMeets (step (endedWith [.command 0x20000000000000000#67])) (fun _ => true) = true ∧
      refusedAs (step (endedWith [.write 0#32])) .strayAnswer = true := by decide +kernel

/-- All five lifecycle states, with no command in progress. -/
theorem test_witness_CommandsAreLegalAsTheTableSays :
    (at_ .created []).waiting = none ∧ (at_ .opened []).waiting = none ∧ (at_ .closed []).waiting = none ∧
      (at_ .failed []).waiting = none ∧ (at_ .destroyed []).waiting = none := ⟨rfl, rfl, rfl, rfl, rfl⟩

theorem test_witness_OverlappingCommandsAreRefused :
    ({ openedWith idTable [] with waiting := some .read } : State).waiting ≠ none := nofun

/-- PROCESS waits for HostRead, and for HostWrite. -/
theorem test_witness_CommandsGoOnWhereTheyWaited :
    nextMeets (exec .process (openedWith idTable []))
      (fun t => decide (t.waiting = some .read ∧ t.inputs = [])) = true ∧
    nextMeets (exec .process (openedWith idTable [.read 1#32 [0xAB#8]]))
      (fun t => decide (t.waiting = some .write ∧ t.inputs = [])) = true ∧
    isAnswer (.write 128#32) = true := by decide +kernel

/-- The three cases of R80: identical, valid, invalid. -/
theorem test_witness_ConfigureOutcomes :
    State.reset.waiting = none ∧ State.reset.life ≠ .destroyed ∧
      (State.reset.fmtRate = 48000#32 ∧ State.reset.fmtCh = 1#32) ∧
      (¬ (11025#32 = State.reset.fmtRate)) ∧ (¬ (8000#32 = State.reset.fmtRate)) := by decide +kernel

theorem test_witness_OpenSucceeds :
    let s := offered 44100#32 2#32 true
    s.waiting = none ∧ s.life = .created ∧
      44100#32 = (if s.answers.rate ≠ 0#32 ∧ s.answers.ch ≠ 0#32 then s.answers.rate else s.fmtRate) ∧
      2#32 = (if s.answers.rate ≠ 0#32 ∧ s.answers.ch ≠ 0#32 then s.answers.ch else s.fmtCh) ∧
      fmtVRate 44100#32 = true ∧ fmtVCh 2#32 = true ∧ s.answers.alloc = true := by decide +kernel

/-- An invalid pair of the host's, and a valid own pair with no buffer to be had. -/
theorem test_witness_FailingOpenWritesOnlyTheLifecycle :
    (let s := offered 8000#32 1#32 true
     s.waiting = none ∧ s.life = .created ∧
      8000#32 = (if s.answers.rate ≠ 0#32 ∧ s.answers.ch ≠ 0#32 then s.answers.rate else s.fmtRate) ∧
      1#32 = (if s.answers.rate ≠ 0#32 ∧ s.answers.ch ≠ 0#32 then s.answers.ch else s.fmtCh) ∧
      fmtVRate 8000#32 = false) ∧
    (let s := offered 0#32 7#32 false
     s.waiting = none ∧ s.life = .created ∧
      48000#32 = (if s.answers.rate ≠ 0#32 ∧ s.answers.ch ≠ 0#32 then s.answers.rate else s.fmtRate) ∧
      1#32 = (if s.answers.rate ≠ 0#32 ∧ s.answers.ch ≠ 0#32 then s.answers.ch else s.fmtCh) ∧
      fmtVRate 48000#32 = true ∧ fmtVCh 1#32 = true ∧ s.answers.alloc = false) := by decide +kernel

theorem test_witness_CloseReleasesTheBuffer :
    ((openedWith idTable []).waiting = none ∧ (openedWith idTable []).life = .opened ∧
      (openedWith idTable []).bufValid = true) ∧
    ((at_ .failed []).waiting = none ∧ (at_ .failed []).life = .failed ∧
      (at_ .failed []).bufValid = false) := ⟨⟨rfl, rfl, rfl⟩, ⟨rfl, rfl, rfl⟩⟩

theorem test_witness_DestroyGivesUpTheInstance :
    (at_ .closed []).waiting = none ∧ (at_ .closed []).life = .closed := ⟨rfl, rfl⟩

theorem test_witness_ProcessAfterTheEndOfStream :
    (endedWith []).waiting = none ∧ (endedWith []).life = .opened ∧ (endedWith []).eos = true :=
  ⟨rfl, rfl, rfl⟩

/-- The boundary value 0. -/
theorem test_witness_ProcessForwardsANonPositiveRead :
    let s := openedWith idTable [.read 0#32 []]
    s.waiting = none ∧ s.life = .opened ∧ s.eos = false ∧ s.inputs = .read 0#32 [] :: [] ∧
      (0#32 : Word).toInt ≤ 0 := by decide +kernel

/-- The boundary values 1 and 128. -/
theorem test_witness_ProcessReadsFiltersAndWrites :
    (let s := openedWith idTable [.read 1#32 [0xAB#8], .write 128#32]
     s.waiting = none ∧ s.life = .opened ∧ s.eos = false ∧ Memory.allocated s.buf = true ∧
      s.inputs = .read 1#32 [0xAB#8] :: .write 128#32 :: [] ∧ 1 ≤ (1#32 : Word).toInt ∧
      (1#32 : Word).toInt ≤ 128 ∧ [(0xAB#8 : Byte)].length = (1#32 : Word).toNat) ∧
    (let s := openedWith idTable [.read 128#32 zeroBlock, .write 64#32]
     s.waiting = none ∧ s.life = .opened ∧ s.eos = false ∧ Memory.allocated s.buf = true ∧
      s.inputs = .read 128#32 zeroBlock :: .write 64#32 :: [] ∧
      1 ≤ (128#32 : Word).toInt ∧ (128#32 : Word).toInt ≤ 128 ∧
      zeroBlock.length = (128#32 : Word).toNat) :=
  ⟨⟨rfl, rfl, rfl, zeroBuf_allocated, rfl, by decide, by decide, rfl⟩,
    rfl, rfl, rfl, zeroBuf_allocated, rfl, by decide, by decide, List.length_replicate⟩

/-- The boundary value 127, an odd count. -/
theorem test_witness_ProcessIsTheStreamFilter :
    let s := openedWith t1Table [.read 127#32 (List.replicate 127 0x40#8), .write 128#32]
    s.waiting = none ∧ s.life = .opened ∧ s.eos = false ∧ Memory.allocated s.buf = true ∧
      s.inputs = .read 127#32 (List.replicate 127 0x40#8) :: .write 128#32 :: [] ∧
      1 ≤ (127#32 : Word).toInt ∧ (127#32 : Word).toInt ≤ 128 ∧
      (List.replicate 127 (0x40#8 : Byte)).length = (127#32 : Word).toNat :=
  ⟨rfl, rfl, rfl, zeroBuf_allocated, rfl, by decide, by decide, List.length_replicate⟩

theorem test_witness_ProcessIgnoresTheFormat :
    nextMeets (exec .process (endedWith [])) (fun _ => true) = true ∧
      refusedAs (exec .process State.reset) (.notLegal .created) = true := by decide +kernel

/-- One byte too many counted, and one byte missing. -/
theorem test_witness_BrokenReadsAreRefused :
    (let s := openedWith idTable [.read 129#32 (List.replicate 129 0#8)]
     s.waiting = none ∧ s.life = .opened ∧ s.eos = false ∧
      s.inputs = .read 129#32 (List.replicate 129 0#8) :: [] ∧ 128 < (129#32 : Word).toInt) ∧
    [(0#8 : Byte)].length ≠ (0xFFFFFFFF#32 : Word).toInt.toNat := by decide +kernel

theorem test_witness_ProcessWaitsAtItsHostCalls :
    ((openedWith idTable []).waiting = none ∧ (openedWith idTable []).life = .opened ∧
      (openedWith idTable []).eos = false ∧ (openedWith idTable []).inputs = []) ∧
    (let s := openedWith idTable [.read 1#32 [0xAB#8]]
     s.waiting = none ∧ s.life = .opened ∧ s.eos = false ∧ Memory.allocated s.buf = true ∧
      s.inputs = [.read 1#32 [0xAB#8]] ∧ 1 ≤ (1#32 : Word).toInt ∧
      readAnswerWf 1#32 [0xAB#8] = true) :=
  ⟨⟨rfl, rfl, rfl, rfl⟩, rfl, rfl, rfl, zeroBuf_allocated, rfl, by decide, by decide⟩

theorem test_witness_SilenceStaysSilent :
    let s := openedWith t1Table [.read 128#32 (List.replicate 128 0#8), .write 128#32]
    s.waiting = none ∧ s.life = .opened ∧ s.eos = false ∧ Memory.allocated s.buf = true ∧
      s.inputs = .read 128#32 (List.replicate 128 0#8) :: .write 128#32 :: [] ∧
      (∀ k : Fin 9, isFinite (readCoef s k).a0 = true ∧ isFinite (readCoef s k).a1 = true ∧
        isFinite (readCoef s k).a2 = true ∧ isFinite (readCoef s k).b1 = true ∧
        isFinite (readCoef s k).b2 = true) ∧
      (∀ k : Fin 9, isZero (readHist s k).inZ1 = true ∧ isZero (readHist s k).inZ2 = true ∧
        isZero (readHist s k).outZ1 = true ∧ isZero (readHist s k).outZ2 = true) :=
  ⟨rfl, rfl, rfl, zeroBuf_allocated, rfl, by decide +kernel, by decide +kernel⟩

theorem test_witness_StageIsDeterministicUpToNaN :
    let s := openedWith t1Table []
    let s' := useDraws 5 (openedWith t1Table [])
    readCoef s' 0 = readCoef s 0 ∧ readHist s' 0 = readHist s 0 ∧
      isNaN (bqApply 0 0x3F000100#32 s).1 = false := by decide +kernel

theorem test_witness_NaNNeverLeavesAStage :
    isNaN (readHist (writeHist State.reset 3 { silentHistory with outZ1 := 0x7FC00000#32 }) 3).outZ1
      = true := by decide +kernel

theorem test_witness_SilentStage :
    let s := openedWith t1Table []
    isFinite (readCoef s 0).a0 = true ∧ isFinite (readCoef s 0).a1 = true ∧
      isFinite (readCoef s 0).a2 = true ∧ isFinite (readCoef s 0).b1 = true ∧
      isFinite (readCoef s 0).b2 = true ∧ isZero (readHist s 0).inZ1 = true ∧
      isZero (readHist s 0).inZ2 = true ∧ isZero (readHist s 0).outZ1 = true ∧
      isZero (readHist s 0).outZ2 = true ∧ isZero 0x80000000#32 = true := by decide +kernel

theorem test_witness_IdentityStageKeepsItsInput :
    idStage = ⟨0x3F800000#32, 0#32, 0#32, 0#32, 0#32⟩ ∧
      isFinite silentHistory.inZ1 = true ∧ isFinite silentHistory.inZ2 = true ∧
      isFinite silentHistory.outZ1 = true ∧ isFinite silentHistory.outZ2 = true ∧
      isFinite 0x00000001#32 = true ∧ isFinite 0x80000000#32 = true := by decide

/-- The largest and the smallest finite magnitudes. -/
theorem test_witness_AdditionRoundsToNearestEven :
    isFinite 0x7F7FFFFF#32 = true ∧ isFinite 0x80000001#32 = true := by decide

theorem test_witness_MultiplicationRoundsToNearestEven :
    isFinite 0xFF7FFFFF#32 = true ∧ isFinite 0x00000001#32 = true := by decide

theorem test_witness_DivisionRoundsToNearestEven :
    isFinite 0xC7000000#32 = true ∧ isFinite Config.scale = true ∧ isZero Config.scale = false := by decide

theorem test_witness_InfinitiesAndNaNs :
    isNaN 0x7F800001#32 = true ∧
      (isInf 0x7F800000#32 = true ∧ isInf 0xFF800000#32 = true ∧
        fSign 0x7F800000#32 ≠ fSign 0xFF800000#32) ∧
      (isFinite 0x7F7FFFFF#32 = true ∧ isNaN 0x00000001#32 = false ∧ isZero 0x00000001#32 = false) ∧
      isZero 0x80000000#32 = true := by decide

theorem test_witness_SignsOfZeros :
    (isFinite 0xBF800000#32 = true ∧ isFinite 0x00000000#32 = true ∧ isZero 0x00000000#32 = true) ∧
      (isFinite 0x00000001#32 = true ∧ isZero 0x00000001#32 = false) := by decide

/-- The last slot, and both signs. -/
theorem test_witness_SampleDecodeIsBigEndian :
    (126 + 2 ≤ 128 ∧ readByte [(126, 0x80#8), (127, 0x00#8)] 126 = some 0x80#8 ∧
      readByte [(126, 0x80#8), (127, 0x00#8)] (126 + 1) = some 0x00#8) ∧
    (0x7F#8 : Byte).toNat < 128 ∧ ¬ (0x80#8 : Byte).toNat < 128 := by decide

theorem test_witness_SampleEncodeWritesItsTwoBytes : 126 + 2 ≤ 128 := by decide

/-- The ends of the range of R95 (V17 and the last negative value in range). -/
theorem test_witness_ConversionTruncatesTowardZero :
    (isFinite 0x46FFFFFE#32 = true ∧ -32769 * 2 ^ 149 < value 0x46FFFFFE#32 ∧
      value 0x46FFFFFE#32 < 32768 * 2 ^ 149) ∧
    (isFinite 0xC70000FF#32 = true ∧ -32769 * 2 ^ 149 < value 0xC70000FF#32 ∧
      value 0xC70000FF#32 < 32768 * 2 ^ 149) := by decide +kernel

/-- The last product in range on each side (V17 and the values after V24). -/
theorem test_witness_RescalingMultipliesBy32767AndTruncates :
    (isFinite 0x3F8000FF#32 = true ∧ isFinite (fmul 0 0x3F8000FF#32 0x46FFFE00#32) = true ∧
      -32769 * 2 ^ 149 < value (fmul 0 0x3F8000FF#32 0x46FFFE00#32) ∧
      value (fmul 0 0x3F8000FF#32 0x46FFFE00#32) < 32768 * 2 ^ 149) ∧
    (isFinite 0xBF8001FF#32 = true ∧ isFinite (fmul 0 0xBF8001FF#32 0x46FFFE00#32) = true ∧
      -32769 * 2 ^ 149 < value (fmul 0 0xBF8001FF#32 0x46FFFE00#32) ∧
      value (fmul 0 0xBF8001FF#32 0x46FFFE00#32) < 32768 * 2 ^ 149) := by decide +kernel

/-- The last slot. -/
theorem test_witness_SampleIsNormalisedFilteredAndRescaled :
    126 + 2 ≤ 128 ∧ readByte (openedWith t1Table []).buf 126 = some 0#8 ∧
      readByte (openedWith t1Table []).buf (126 + 1) = some 0#8 := by decide +kernel

theorem test_witness_BuffersThatReadAlikeAreEqual :
    Memory.wf [(0, 0#8), (127, 1#8)] = true ∧
      (∀ a, readByte [(0, 0#8), (127, 1#8)] a = readByte [(0, 0#8), (127, 1#8)] a) :=
  ⟨by decide, fun _ => rfl⟩

/-- At reset, with another buffer. -/
theorem test_witness_NothingDependsOnAnInvalidBuffer :
    Inv State.reset ∧ State.reset.life ≠ .opened ∧ Memory.wf zeroBuf = true :=
  ⟨⟨reset_buf_wf, fun _ => by simp [State.reset], unspecifiedBuffer_allocated 0, nofun,
    fun _ => ⟨rfl, rfl, rfl⟩, trivial, nofun⟩, nofun, zeroBuf_wf⟩

/-- PROCESS waits at HostRead; OPEN is legal and alone at reset. -/
theorem test_witness_OnlyProcessWaits :
    nextMeets (exec .process (openedWith idTable [])) (fun t => decide (t.waiting ≠ none)) = true ∧
      State.reset.waiting = none ∧ State.reset.life = .created := by decide +kernel

end Sys2Proof.Tests
end

section
/-! PROOFS. The biquad stage and its arithmetic (spec/40_biquad.md). -/

namespace Sys2Proof.Proofs

open Sys2Proof.Machine

/-! ### What a step leaves in the history registers, stage by stage -/

/-- R66: the four history writes of the stage that steps. -/
theorem readHist_bqApply_self (k : Fin 9) (x : F32) (s : State) :
    readHist (bqApply k x s).2 k = shiftHistory (readHist s k) x (bqApply k x s).1 := by
  rw [readHist_bqApply, if_pos rfl]

/-- R77: the step reaches no other stage's history. -/
theorem readHist_bqApply_of_ne {j k : Fin 9} (h : j ≠ k) (x : F32) (s : State) :
    readHist (bqApply k x s).2 j = readHist s j := by
  rw [readHist_bqApply, if_neg h]

/-- Settles O37: operation `i` of R66 takes the draw `s.draws + i`, and the history operands are those of `s`
itself, so the writes come after the output. -/
theorem stageComputesItsFormula : Obligations.StageComputesItsFormula := by
  unfold Obligations.StageComputesItsFormula
  intro k x s
  refine ⟨fun i => s.draws + i.val, ?output, ?ownHistory, ?otherHistories, ?frame⟩
  case output => rw [bqApply_fst]; rfl
  case ownHistory => exact readHist_bqApply_self k x s
  case otherHistories => exact fun _ hne => readHist_bqApply_of_ne hne x s
  case frame => exact bqApply_historyOnly k x s

end Sys2Proof.Proofs
end

section
/-! PROOFS. The chain (spec/41_chain.md). -/

namespace Sys2Proof.Proofs

open Sys2Proof.Machine

/-! ### The chain after its first `n` stages -/

/-- The sample and the state after stages 0 to `n - 1` of R75's loop. -/
def chainPrefix (n : Nat) (x : F32) (s : State) : F32 × State := applyStages (stageOrder.take n) x s

theorem chainPrefix_nine (x : F32) (s : State) : chainPrefix 9 x s = chainApplyAll x s := rfl

/-- R75: ascending, none skipped: the stage after stages 0 to `k - 1` is stage `k`. -/
theorem take_succ_stageOrder (k : Fin 9) :
    stageOrder.take (k.val + 1) = stageOrder.take k.val ++ [k] := by revert k; decide

theorem stageOrder_eq_append_cons (k : Fin 9) :
    stageOrder = stageOrder.take k.val ++ k :: stageOrder.drop (k.val + 1) := by revert k; decide

/-- R75: one turn of the loop, each output the next stage's input. -/
theorem chainPrefix_succ (k : Fin 9) (x : F32) (s : State) :
    chainPrefix (k.val + 1) x s = bqApply k (chainPrefix k.val x s).1 (chainPrefix k.val x s).2 := by
  rw [chainPrefix, take_succ_stageOrder, applyStages_append]
  rfl

/-! ### What the chain leaves in a stage's history -/

/-- R66, R77: where no stage runs twice, a stage that runs shifts the history it had at the start: the stages
before it have not reached its registers, and those after it do not. -/
theorem readHist_applyStages_append_cons {ks ls : List (Fin 9)} {k : Fin 9} (h : (ks ++ k :: ls).Nodup)
    (x : F32) (s : State) :
    readHist (applyStages (ks ++ k :: ls) x s).2 k =
      shiftHistory (readHist s k) (applyStages ks x s).1
        (bqApply k (applyStages ks x s).1 (applyStages ks x s).2).1 := by
  obtain ⟨hnot, -⟩ := List.nodup_cons.mp (List.nodup_middle.mp h)
  obtain ⟨hbefore, hafter⟩ := not_or.mp (mt List.mem_append.mpr hnot)
  rw [applyStages_append, applyStages, readHist_applyStages_of_not_mem hafter, readHist_bqApply_self,
    readHist_applyStages_of_not_mem hbefore]

/-- R75, R77: each stage makes one step, from its own history, with the input and the output the loop gives it. -/
theorem readHist_chainApplyAll (k : Fin 9) (x : F32) (s : State) :
    readHist (chainApplyAll x s).2 k =
      shiftHistory (readHist s k) (chainPrefix k.val x s).1 (chainPrefix (k.val + 1) x s).1 := by
  have hsplit := stageOrder_eq_append_cons k
  have hnodup := stageOrder_nodup
  rw [hsplit] at hnodup
  rw [chainPrefix_succ, chainApplyAll, hsplit]
  exact readHist_applyStages_append_cons hnodup x s

/-- Settles O40: the values and states of the loop are those after the first `n` stages. -/
theorem chainRunsItsNineStagesInOrder : Obligations.ChainRunsItsNineStagesInOrder := by
  unfold Obligations.ChainRunsItsNineStagesInOrder
  intro x s
  refine ⟨fun n => (chainPrefix n x s).1, fun n => (chainPrefix n x s).2, rfl, rfl,
    ?eachStage, ?wholeChain, ?histories, ?frame⟩
  case eachStage => exact fun k => (chainPrefix_succ k x s).symm
  case wholeChain => exact (chainPrefix_nine x s).symm
  case histories => exact fun k => readHist_chainApplyAll k x s
  case frame => exact chainApplyAll_historyOnly x s

end Sys2Proof.Proofs
end

section
/-! PROOFS. The format predicates and CONFIGURE (spec/42_format.md). -/

namespace Sys2Proof.Proofs

open Sys2Proof.Machine

/-! ### The format predicates -/

/-- R78: the rates, as words. -/
theorem fmtVRate_iff {v : Word} :
    fmtVRate v = true ↔ v = 11025#32 ∨ v = 22050#32 ∨ v = 44100#32 ∨ v = 48000#32 := by
  simp only [fmtVRate, Bool.or_eq_true, beq_iff_eq, or_assoc]

/-- R79: the channel counts, as words. -/
theorem fmtVCh_iff {v : Word} : fmtVCh v = true ↔ v = 1#32 ∨ v = 2#32 := by
  simp only [fmtVCh, Bool.or_eq_true, beq_iff_eq]

/-- Settles O23: a word is told by its signed value, so the words of the predicates are the numbers of R78
and R79. -/
theorem rateAndChannelPredicates : Obligations.RateAndChannelPredicates := by
  unfold Obligations.RateAndChannelPredicates
  intro v
  rw [fmtVRate_iff, fmtVCh_iff]
  simp only [← BitVec.toInt_inj]
  exact ⟨Iff.rfl, Iff.rfl⟩

/-! ### CONFIGURE -/

/-- R47: where no command waits, delivering a result changes nothing but the results. -/
theorem deliver_eq_of_idle {s : State} (hw : s.waiting = none) (w : Word) :
    deliver w s = { s with results := s.results ++ [w] } := by
  rw [deliver, ← hw]

/-- Settles O24: the three branches of CONFIGURE's body, each of which only delivers its result, after the
format's two fields where the pair is new and valid. -/
theorem configureOutcomes : Obligations.ConfigureOutcomes := by
  unfold Obligations.ConfigureOutcomes
  intro s rate ch hw hl
  rw [exec_configure_eq rate ch hw hl]
  simp only [Bool.and_eq_true, fmtVRate_iff, fmtVCh_iff]
  split
  case isTrue identical => rw [finish_eq, deliver_eq_of_idle hw]
  case isFalse different =>
    split
    case isTrue valid => rw [finish_eq, deliver_eq_of_idle (s := setFmt rate ch s) hw]; rfl
    case isFalse invalid => rw [raise_eq, deliver_eq_of_idle hw]; rfl

end Sys2Proof.Proofs
end

section
/-! PROOFS. Sample conversion (spec/44_sample_conversion.md). -/

namespace Sys2Proof.Proofs

open Sys2Proof.Machine

/-! ### Truncation toward zero -/

/-- Dropping the fraction of a quotient below a positive bound leaves it below the bound. -/
theorem tdiv_lt_of_lt_mul {v b k : Int} (hb : 0 < b) (hk : 0 < k) (h : v < b * k) : v.tdiv k < b := by
  rcases Int.le_total 0 v with hv | hv
  · rw [Int.tdiv_eq_ediv_of_nonneg hv]
    exact Int.ediv_lt_of_lt_mul hk h
  · have hle : v.tdiv k ≤ Int.tdiv 0 k := Int.tdiv_le_tdiv hk hv
    rw [Int.zero_tdiv] at hle
    exact Int.lt_of_le_of_lt hle hb

/-- A quotient above a negative bound stays above it: truncation is symmetric about zero. -/
theorem lt_tdiv_of_neg_mul_lt {v b k : Int} (hb : 0 < b) (hk : 0 < k) (h : -b * k < v) :
    -b < v.tdiv k := by
  have hneg : (-v).tdiv k < b := tdiv_lt_of_lt_mul hb hk (by linarith)
  rw [Int.neg_tdiv] at hneg
  exact Int.neg_lt_of_neg_lt hneg

/-- Settles O52: the truncated value of a number in the range of R95 fits in 16 bits, so its pattern reads back
as itself. -/
theorem conversionTruncatesTowardZero : Obligations.ConversionTruncatesTowardZero := by
  unfold Obligations.ConversionTruncatesTowardZero
  intro d q hfinite habove hbelow
  have hlow : -32769 < (value q).tdiv (2 ^ 149) := lt_tdiv_of_neg_mul_lt (by decide) (by decide) habove
  have hhigh : (value q).tdiv (2 ^ 149) < 32768 := tdiv_lt_of_lt_mul (by decide) (by decide) hbelow
  rw [f2i_inRange ((f2iInRange_iff q).mpr ⟨hfinite, habove, hbelow⟩)]
  exact BitVec.toInt_ofInt_eq_self (by decide) (Int.le_of_sub_one_lt hlow) hhigh

/-! ### The two bytes of a sample -/

/-- R53: the high byte counts 256 times. -/
theorem toNat_joinBytes (hi lo : Byte) : (joinBytes hi lo).toNat = 256 * hi.toNat + lo.toNat := by
  rw [joinBytes, BitVec.toNat_append, ← Nat.shiftLeft_add_eq_or_of_lt lo.isLt, Nat.shiftLeft_eq]
  omega

/-- R53: bits 15:8. -/
theorem toNat_highByte (p : Sample) : (highByte p).toNat = p.toNat / 256 := by
  have := p.isLt
  rw [highByte, BitVec.extractLsb'_toNat, Nat.shiftRight_eq_div_pow]
  omega

/-- R53: bits 7:0. -/
theorem toNat_lowByte (p : Sample) : (lowByte p).toNat = p.toNat % 256 := by
  rw [lowByte, BitVec.extractLsb'_toNat, Nat.shiftRight_zero]

/-- Joining undoes splitting. -/
theorem joinBytes_highByte_lowByte (p : Sample) : joinBytes (highByte p) (lowByte p) = p := by
  apply BitVec.eq_of_toNat_eq
  rw [toNat_joinBytes, toNat_highByte, toNat_lowByte]
  exact Nat.div_add_mod p.toNat 256

/-- Settles O49: both addresses exist, so SMP.DECODE answers the joined bytes, and the sign of the pair is bit 7
of the high byte. -/
theorem sampleDecodeIsBigEndian : Obligations.SampleDecodeIsBigEndian := by
  unfold Obligations.SampleDecodeIsBigEndian
  intro i s hi lo hle hhi hlo
  refine ⟨joinBytes hi lo, smpDecode_eq hle hhi hlo, ?_⟩
  have := lo.isLt
  rw [BitVec.toInt_eq_toNat_cond, toNat_joinBytes]
  split <;> split <;> omega

/-! ### Writing the two bytes of a sample -/

theorem readByte_writeBytes_pair_fst (m : Memory) (i : Nat) (v w : Byte) :
    readByte (writeBytes m i [v, w]) i = some v :=
  readByte_writeBytes_mem [v, w] m i 0 Nat.zero_lt_two

theorem readByte_writeBytes_pair_snd (m : Memory) (i : Nat) (v w : Byte) :
    readByte (writeBytes m i [v, w]) (i + 1) = some w :=
  readByte_writeBytes_mem [v, w] m i 1 Nat.one_lt_two

theorem readByte_writeBytes_pair_of_ne (m : Memory) (v w : Byte) {i a : Nat} (h : a ≠ i)
    (h' : a ≠ i + 1) : readByte (writeBytes m i [v, w]) a = readByte m a := by
  rcases Nat.lt_or_gt_of_ne h with hlt | hgt
  · exact readByte_writeBytes_of_lt _ _ _ _ hlt
  · exact readByte_writeBytes_of_ge _ _ _ _ (Nat.lt_of_le_of_ne hgt h'.symm)

/-- Settles O50: SMP.ENCODE changes the buffer only, at the two addresses it writes, and SMP.DECODE joins what it
split. -/
theorem sampleEncodeWritesItsTwoBytes : Obligations.SampleEncodeWritesItsTwoBytes := by
  unfold Obligations.SampleEncodeWritesItsTwoBytes
  intro i p s hle
  have hhi := readByte_writeBytes_pair_fst s.buf i (highByte p) (lowByte p)
  have hlo := readByte_writeBytes_pair_snd s.buf i (highByte p) (lowByte p)
  refine ⟨_, smpEncode_eq hle p s, ?high, ?low, ?otherBytes, ?frame, ?readBack⟩
  case high => rw [setBuf_buf, hhi, Option.map_some, toNat_highByte]
  case low => rw [setBuf_buf, hlo, Option.map_some, toNat_lowByte]
  case otherBytes => exact fun _ h h' => readByte_writeBytes_pair_of_ne _ _ _ h h'
  case frame => rfl
  case readBack => rw [smpDecode_eq hle hhi hlo, joinBytes_highByte_lowByte]

end Sys2Proof.Proofs
end

section
/-! PROOFS. The command word (spec/30_encoding.md). -/

namespace Sys2Proof.Proofs

open Sys2Proof.Laws.EncodingRow (packWord_and_mask)

/-! ### Decoding undoes encoding -/

theorem decode_encode (i : Instr) : decode (encode i) = .ok i := by
  cases i <;> simp [encode, decode, Instr.opcode]

/-- R58, R59: a decoded CONFIGURE carries the two operand fields of its word. -/
theorem operands_of_decode_configure {w : CmdWord} {rate ch : Word}
    (h : decode w = .ok (.configure rate ch)) : rate = rateField w ∧ ch = chField w := by
  rcases decode_cases w with ⟨-, hd⟩ | ⟨-, hd⟩ | ⟨-, hd⟩ | ⟨-, hd⟩ | ⟨-, hd⟩ | ⟨-, hd⟩ <;>
    rw [hd] at h <;> cases h
  exact ⟨rfl, rfl⟩

/-- R58: the masked bits of a command's word and of any word that decodes to it are the opcode's. -/
theorem encode_and_mask_of_decode {w : CmdWord} {i : Instr} (h : decode w = .ok i) :
    encode i &&& opcodeMask = w &&& opcodeMask := by
  obtain ⟨rate, ch, hencode, -⟩ := encode_eq i
  rw [hencode, opcode_of_decode h, packWord_and_mask, ← packWord_and_mask (opField w) (rateField w) (chField w),
    packWord_fields]

theorem encode_configure_of_decode {w : CmdWord} {rate ch : Word}
    (h : decode w = .ok (.configure rate ch)) : encode (.configure rate ch) = w := by
  obtain ⟨rfl, rfl⟩ := operands_of_decode_configure h
  rw [encode, opcode_of_decode h, packWord_fields]

/-- Settles O2: a word is the pack of its three fields, and decoding reads the fields back. -/
theorem decodeAndEncodeAgree : Obligations.DecodeAndEncodeAgree := by
  unfold Obligations.DecodeAndEncodeAgree
  refine ⟨decode_encode, fun w i h => ⟨encode_and_mask_of_decode h, ?_⟩⟩
  rintro rate ch rfl
  exact encode_configure_of_decode h

/-! ### The fields as numbers -/

theorem toNat_opField (w : CmdWord) : (opField w).toNat = w.toNat / 2 ^ 64 := by
  have := w.isLt
  rw [opField, BitVec.extractLsb'_toNat, Nat.shiftRight_eq_div_pow, Nat.mod_eq_of_lt (by omega)]

theorem opField_eq_ofNat (w : CmdWord) : opField w = BitVec.ofNat 3 (w.toNat / 2 ^ 64) := by
  rw [← toNat_opField, BitVec.ofNat_toNat, BitVec.setWidth_eq]

theorem rateField_eq_ofNat (w : CmdWord) : rateField w = BitVec.ofNat 32 (w.toNat / 2 ^ 32) := by
  apply BitVec.eq_of_toNat_eq
  rw [rateField, BitVec.extractLsb'_toNat, Nat.shiftRight_eq_div_pow, BitVec.toNat_ofNat]

theorem chField_eq_ofNat (w : CmdWord) : chField w = BitVec.ofNat 32 w.toNat := by
  apply BitVec.eq_of_toNat_eq
  rw [chField, BitVec.extractLsb'_toNat, Nat.shiftRight_zero, BitVec.toNat_ofNat]

/-- R63: every opcode from 5 on is reserved. -/
theorem decode_reserved {w : CmdWord} (h : 5 ≤ w.toNat / 2 ^ 64) :
    decode w = .error (.reservedOpcode (BitVec.ofNat 3 (w.toNat / 2 ^ 64))) := by
  rw [← toNat_opField] at h
  rcases decode_cases w with ⟨ho, -⟩ | ⟨ho, -⟩ | ⟨ho, -⟩ | ⟨ho, -⟩ | ⟨ho, -⟩ | ⟨-, hd⟩
  case inr.inr.inr.inr.inr => rw [hd, opField_eq_ofNat]
  all_goals exact absurd h (by rw [ho]; decide)

/-- Settles O3: `decode` looks at the number in bits 66:64 and at nothing else to select its row. -/
theorem opcodeAloneSelectsTheCommand : Obligations.OpcodeAloneSelectsTheCommand := by
  unfold Obligations.OpcodeAloneSelectsTheCommand
  intro w
  refine ⟨fun h => ?configure, fun h => ?openStream, fun h => ?process, fun h => ?closeStream,
    fun h => ?destroy, decode_reserved⟩
  case configure => simp only [decode, toNat_opField, h, ← rateField_eq_ofNat, ← chField_eq_ofNat]
  all_goals simp only [decode, toNat_opField, h]

/-- Settles O1: the six words, by evaluation. -/
theorem wordsOfTheSpecDecode : Obligations.WordsOfTheSpecDecode := by
  unfold Obligations.WordsOfTheSpecDecode
  decide

end Sys2Proof.Proofs
end

section
/-! PROOFS. What a step can change, said once; the invariant and the other statements about every step. -/

namespace Sys2Proof.Proofs

open Sys2Proof.Machine Sys2Proof.Safety

/-! ### PROCESS from a host call on -/

/-- R105 to R109: `t` is `s` after a read was filtered in place and handed to HostWrite as the block `b`. -/
structure BlockStep (s t : State) (b : List Byte) : Prop where
  frame : t = { s with
    z := t.z, draws := t.draws, buf := t.buf, eos := t.eos, cnt := t.cnt, inputs := t.inputs,
    waiting := t.waiting, results := t.results, blocks := s.blocks ++ [b] }
  full : b.length = Config.bufSize
  wf : Memory.wf s.buf = true → Memory.wf t.buf = true
  held : Memory.allocated s.buf = true → Memory.allocated t.buf = true
  outcome : (t.waiting = some .write ∧ t.results = s.results) ∨
    (t.waiting = none ∧ ∃ w, t.results = s.results ++ [w])

/-- R103, R104, R109: all that PROCESS can do from HostRead on. -/
theorem processRead_next {s t : State} (h : processRead s = .next t) :
    t = { s with waiting := some .read } ∨
    (∃ r rest, t = deliver r { s with inputs := rest }) ∨
    ∃ b, BlockStep s t b := by
  rcases processRead_cases s with ⟨r, data, rest, -, hk⟩ | ⟨-, hk⟩ | hk
  case inr.inl => rw [hk] at h; cases h; exact .inl rfl
  case inr.inr => rw [hk] at h; exact absurd h nofun
  rw [hk] at h
  obtain ⟨-, ⟨-, rfl⟩ | ⟨-, m, u, b, hm, hu, hb, hwrite⟩⟩ := processData_next h
  · exact .inr (.inl ⟨r, rest, rfl⟩)
  · obtain ⟨hdata, hwf, hheld, -⟩ := sampleLoop_ok hu
    have hwf' : Memory.wf s.buf = true → Memory.wf u.buf = true := fun hs => hwf (memWrite_wf hs hm)
    have hheld' : Memory.allocated s.buf = true → Memory.allocated u.buf = true :=
      fun hs => hheld (memWrite_allocated hs hm)
    rcases processWrite_next hwrite with ⟨w, _, -, rfl⟩ | rfl
    · exact .inr (.inr ⟨b, by rw [hdata]; rfl, memRead_length hb, hwf', hheld',
        .inr ⟨rfl, w, congrArg (· ++ [w]) hdata.results⟩⟩)
    · exact .inr (.inr ⟨b, by rw [hdata]; rfl, memRead_length hb, hwf', hheld', .inl ⟨rfl, hdata.results⟩⟩)

/-! ### All a step can do -/

/-- All that a step from `s` to `t` can do. A PROCESS in progress is where the invariant says it is. -/
inductive StepEffect (s t : State) : Prop
  /-- R132: the host does nothing. -/
  | idle (ht : t = s)
  /-- R131. -/
  | reset (p : ResetParams) (rest : List HostInput) (hs : s.inputs = .reset p :: rest)
      (ht : t = applyReset p { s with inputs := rest })
  /-- R42, R43: the host settles an answer. -/
  | settled (ht : t = { s with inputs := t.inputs, answers := t.answers })
  /-- A result and nothing else: CONFIGURE of the same or an invalid pair, PROCESS with nothing to hand over. -/
  | delivered (w : Word) (rest : List HostInput) (ht : t = deliver w { s with inputs := rest })
  /-- R80. -/
  | formatted (rate ch : Word) (rest : List HostInput) (hr : fmtVRate rate = true) (hc : fmtVCh ch = true)
      (hw : s.waiting = none) (ht : t = deliver Config.ok (setFmt rate ch { s with inputs := rest }))
  /-- R85. -/
  | opened (rate ch : Word) (rest : List HostInput) (hr : fmtVRate rate = true) (hc : fmtVCh ch = true)
      (hl : s.life = .created)
      (ht : t = deliver Config.ok (openWith rate ch (writeBytes s.buf 0 zeroBlock) { s with inputs := rest }))
  /-- R86. -/
  | openFailed (w : Word) (rest : List HostInput) (hl : s.life = .created)
      (ht : t = deliver w (setLife .failed { s with inputs := rest }))
  /-- R87. -/
  | closed (rest : List HostInput) (hl : s.life = .opened ∨ s.life = .failed)
      (ht : t = deliver Config.ok (setLife .closed (releaseBuffer { s with inputs := rest })))
  /-- R88. -/
  | destroyed (rest : List HostInput) (hl : s.life = .closed ∨ s.life = .failed)
      (ht : t = deliver Config.ok (setLife .destroyed (unspecifyRegisters { s with inputs := rest })))
  /-- R111: PROCESS waits. -/
  | waits (c : Call) (hl : WaitingFits s → s.life = .opened)
      (he : WaitingFits s → c = .read → s.eos = false)
      (ht : t = { s with inputs := t.inputs, waiting := some c })
  /-- R109: PROCESS hands over a block. -/
  | block (b : List Byte) (hl : WaitingFits s → s.life = .opened) (he : WaitingFits s → s.eos = false)
      (ht : BlockStep s t b)

/-- PROCESS from HostRead on, in the step that took the inputs before `rest` off the port. -/
theorem stepEffect_of_processRead {s t : State} {rest : List HostInput}
    (hl : WaitingFits s → s.life = .opened) (he : WaitingFits s → s.eos = false)
    (h : processRead { s with inputs := rest } = .next t) : StepEffect s t := by
  rcases processRead_next h with rfl | ⟨r, rest', rfl⟩ | ⟨b, hframe, hfull, hwf, hheld, houtcome⟩
  · exact .waits .read hl (fun hf _ => he hf) rfl
  · exact .delivered r rest' rfl
  · exact .block b hl he ⟨hframe, hfull, hwf, hheld, houtcome⟩

theorem stepEffect_of_exec {i : Instr} {s t : State} {rest : List HostInput}
    (h : exec i { s with inputs := rest } = .next t) : StepEffect s t := by
  cases i with
  | configure rate ch =>
    obtain ⟨hw, -, ⟨-, -, rfl⟩ | ⟨hr, hc, rfl⟩ | rfl⟩ := exec_configure_next h
    · exact .delivered Config.ok rest rfl
    · exact .formatted rate ch rest hr hc hw rfl
    · exact .delivered Config.errInvalidArg rest rfl
  | openStream =>
    obtain ⟨-, hl, hbody⟩ := exec_openStream_next h
    rcases openFormat_cases { s with inputs := rest } with
      ⟨⟨hr, hc⟩, ⟨-, hopen⟩ | ⟨-, hopen⟩⟩ | ⟨-, hopen⟩ <;>
      rw [hopen] at hbody <;> cases hbody
    · exact .opened _ _ rest hr hc hl rfl
    · exact .openFailed Config.errNoMem rest hl rfl
    · exact .openFailed Config.errInvalidArg rest hl rfl
  | process =>
    obtain ⟨-, hl, ⟨-, rfl⟩ | ⟨he, hread⟩⟩ := exec_process_next h
    · exact .delivered 0#32 rest rfl
    · exact stepEffect_of_processRead (fun _ => hl) (fun _ => he) hread
  | closeStream =>
    obtain ⟨-, hl, rfl⟩ := exec_closeStream_next h
    exact .closed rest hl rfl
  | destroy =>
    obtain ⟨-, hl, rfl⟩ := exec_destroy_next h
    exact .destroyed rest hl rfl

theorem stepEffect_of_resume {c : Call} {s t : State} (hw : s.waiting = some c) (h : resume c s = .next t) :
    StepEffect s t := by
  cases c with
  | read =>
    have hfits : WaitingFits s → s.life = .opened ∧ s.eos = false := by
      unfold WaitingFits; rw [hw]; exact id
    exact stepEffect_of_processRead (rest := s.inputs) (fun hf => (hfits hf).1) (fun hf => (hfits hf).2) h
  | write =>
    have hfits : WaitingFits s → s.life = .opened := by
      unfold WaitingFits; rw [hw]; exact id
    rcases processWrite_next h with ⟨w, rest, -, rfl⟩ | rfl
    · exact .delivered w rest rfl
    · exact .waits .write hfits nofun rfl

/-- The inversion of the step: a next state comes about in one of the ways of `StepEffect`. -/
theorem stepEffect_of_next {s t : State} (h : step s = .next t) : StepEffect s t := by
  rcases step_cases s with ⟨-, hk⟩ | ⟨p, rest, hs, hk⟩ | ⟨hr, hc, rest, -, hk⟩ | ⟨ok, rest, -, hk⟩ |
    ⟨w, rest, i, -, -, hk⟩ | ⟨w, rest, op, -, -, hk⟩ | ⟨x, rest, c, -, -, hw, hk⟩ | ⟨x, rest, -, -, -, hk⟩ <;>
    rw [hk] at h
  · cases h; exact .idle rfl
  · cases h; exact .reset p rest hs rfl
  · cases h; exact .settled rfl
  · cases h; exact .settled rfl
  · exact stepEffect_of_exec h
  · exact absurd h nofun
  · exact stepEffect_of_resume hw h
  · exact absurd h nofun

end Sys2Proof.Proofs
end

section
/-! PROOFS. The invariant, and what every step keeps. -/

namespace Sys2Proof.Proofs

open Sys2Proof.Machine Sys2Proof.Safety

/-! ### The invariant -/

/-- Settles O9: the buffer of the draw 0 is whole, and nothing has happened yet. -/
theorem resetStateMeetsTheInvariant : Obligations.ResetStateMeetsTheInvariant where
  bufWf := reset_buf_wf
  bufOpen _ := ⟨nofun, nofun⟩
  bufHeld := unspecifiedBuffer_allocated 0
  fmtOpen := nofun
  quiet _ := ⟨rfl, rfl, rfl⟩
  waitingFits := trivial
  blocksFull := nofun

theorem zeroBlock_length : zeroBlock.length = Config.bufSize := List.length_replicate

/-- R131: RESET brings the invariant about, but for the host's record of blocks. -/
theorem inv_applyReset {s : State} (p : ResetParams) (hi : Inv s) : Inv (applyReset p s) where
  bufWf := unspecifiedBuffer_wf s.draws
  bufOpen _ := ⟨nofun, nofun⟩
  bufHeld := unspecifiedBuffer_allocated s.draws
  fmtOpen := nofun
  quiet _ := ⟨rfl, rfl, rfl⟩
  waitingFits := trivial
  blocksFull := hi.blocksFull

/-- R21, R25: a successful OPEN stores a valid pair and makes the buffer valid. -/
theorem inv_opened {s : State} {rate ch : Word} {m : Memory} (w : Word) (hr : fmtVRate rate = true)
    (hc : fmtVCh ch = true) (hwf : Memory.wf m = true) (hheld : Memory.allocated m = true) (hi : Inv s) :
    Inv (deliver w (openWith rate ch m s)) where
  bufWf := hwf
  bufOpen _ := ⟨fun _ => rfl, fun _ => rfl⟩
  bufHeld := hheld
  fmtOpen _ := ⟨hr, hc⟩
  quiet h := by rcases h with h | h <;> exact absurd h nofun
  waitingFits := trivial
  blocksFull := hi.blocksFull

/-- R33, R34: OPEN fills the buffer. -/
theorem writeBytes_zeroBlock_wf {m : Memory} (h : Memory.wf m = true) :
    Memory.wf (writeBytes m 0 zeroBlock) = true :=
  writeBytes_wf zeroBlock h (by rw [zeroBlock_length, Nat.zero_add])

/-- R85(d): an OPEN that fails leaves the quiet registers of a created element. -/
theorem inv_openFailed {s : State} (w : Word) (hl : s.life = .created) (hi : Inv s) :
    Inv (deliver w (setLife .failed s)) where
  bufWf := hi.bufWf
  bufOpen _ := ⟨fun hv => by have h := (hi.bufOpen (by rw [hl]; nofun)).mp hv; rw [hl] at h; exact absurd h nofun,
    nofun⟩
  bufHeld := hi.bufHeld
  fmtOpen := nofun
  quiet _ := hi.quiet (.inl hl)
  waitingFits := trivial
  blocksFull := hi.blocksFull

/-- R25: CLOSE leaves a buffer that is not valid. -/
theorem inv_closed {s : State} (w : Word) (hi : Inv s) :
    Inv (deliver w (setLife .closed (releaseBuffer s))) where
  bufWf := by
    rw [deliver_buf, setLife_buf, releaseBuffer_buf]
    split
    · exact unspecifiedBuffer_wf s.draws
    · exact hi.bufWf
  bufOpen _ := by rw [deliver_bufValid, setLife_bufValid, releaseBuffer_bufValid]; exact ⟨nofun, nofun⟩
  bufHeld := by
    rw [deliver_buf, setLife_buf, releaseBuffer_buf]
    split
    · exact unspecifiedBuffer_allocated s.draws
    · exact hi.bufHeld
  fmtOpen := nofun
  quiet h := by rcases h with h | h <;> exact absurd h nofun
  waitingFits := trivial
  blocksFull := by rw [deliver_blocks, setLife_blocks, releaseBuffer_blocks]; exact hi.blocksFull

/-- R32: of a destroyed element the invariant asks for a whole buffer only. -/
theorem inv_destroyed {s : State} (w : Word) (hi : Inv s) :
    Inv (deliver w (setLife .destroyed (unspecifyRegisters s))) where
  bufWf := unspecifiedBuffer_wf s.draws
  bufOpen h := absurd rfl h
  bufHeld := unspecifiedBuffer_allocated s.draws
  fmtOpen := nofun
  quiet h := by rcases h with h | h <;> exact absurd h nofun
  waitingFits := trivial
  blocksFull := hi.blocksFull

/-- R101, R129: a PROCESS may wait in an opened element, at HostRead before the end of the stream. -/
theorem inv_waits {s : State} {c : Call} (xs : List HostInput) (hl : s.life = .opened)
    (he : c = .read → s.eos = false) (hi : Inv s) : Inv { s with inputs := xs, waiting := some c } where
  bufWf := hi.bufWf
  bufOpen := hi.bufOpen
  bufHeld := hi.bufHeld
  fmtOpen := hi.fmtOpen
  quiet := hi.quiet
  waitingFits := by
    cases c with
    | read => exact ⟨hl, he rfl⟩
    | write => exact hl
  blocksFull := hi.blocksFull

theorem BlockStep.life {s t : State} {b : List Byte} (h : BlockStep s t b) : t.life = s.life := by rw [h.frame]

theorem BlockStep.blocks {s t : State} {b : List Byte} (h : BlockStep s t b) : t.blocks = s.blocks ++ [b] := by
  rw [h.frame]

/-- R109: the block handed over is the whole buffer. -/
theorem inv_block {s t : State} {b : List Byte} (h : BlockStep s t b) (hl : s.life = .opened) (hi : Inv s) :
    Inv t where
  bufWf := h.wf hi.bufWf
  bufOpen := by rw [h.frame]; exact hi.bufOpen
  bufHeld := h.held hi.bufHeld
  fmtOpen := by rw [h.frame]; exact hi.fmtOpen
  quiet hq := by rw [h.life, hl] at hq; rcases hq with hq | hq <;> exact absurd hq nofun
  waitingFits := by
    unfold WaitingFits
    rcases h.outcome with ⟨hw, -⟩ | ⟨hw, -⟩ <;> rw [hw]
    · exact h.life.trans hl
    · trivial
  blocksFull := by
    intro c hc
    rw [h.blocks, List.mem_append, List.mem_singleton] at hc
    rcases hc with hc | rfl
    · exact hi.blocksFull c hc
    · exact h.full

/-- Settles O10: each way a next state comes about keeps the invariant. -/
theorem everyStepKeepsTheInvariant : Obligations.EveryStepKeepsTheInvariant := by
  unfold Obligations.EveryStepKeepsTheInvariant
  intro s t hi hstep
  have hport : ∀ rest, Inv { s with inputs := rest } := fun rest =>
    ⟨hi.bufWf, hi.bufOpen, hi.bufHeld, hi.fmtOpen, hi.quiet, hi.waitingFits, hi.blocksFull⟩
  cases stepEffect_of_next hstep with
  | idle ht => rw [ht]; exact hi
  | reset p rest _ ht => rw [ht]; exact inv_applyReset p (hport rest)
  | settled ht =>
    rw [ht]
    exact ⟨hi.bufWf, hi.bufOpen, hi.bufHeld, hi.fmtOpen, hi.quiet, hi.waitingFits, hi.blocksFull⟩
  | delivered w rest ht =>
    rw [ht]
    exact ⟨hi.bufWf, hi.bufOpen, hi.bufHeld, hi.fmtOpen, hi.quiet, trivial, hi.blocksFull⟩
  | formatted rate ch rest hr hc _ ht =>
    rw [ht]
    exact ⟨hi.bufWf, hi.bufOpen, hi.bufHeld, fun _ => ⟨hr, hc⟩, hi.quiet, trivial, hi.blocksFull⟩
  | opened rate ch rest hr hc _ ht =>
    rw [ht]
    exact inv_opened Config.ok hr hc (writeBytes_zeroBlock_wf hi.bufWf)
      (allocated_of_full_write s.buf zeroBlock_length) (hport rest)
  | openFailed w rest hl ht => rw [ht]; exact inv_openFailed w hl (hport rest)
  | closed rest _ ht => rw [ht]; exact inv_closed Config.ok (hport rest)
  | destroyed rest _ ht => rw [ht]; exact inv_destroyed Config.ok (hport rest)
  | waits c hl he ht => rw [ht]; exact inv_waits t.inputs (hl hi.waitingFits) (he hi.waitingFits) hi
  | block b hl _ ht => exact inv_block ht (hl hi.waitingFits) hi

/-! ### What the steps leave alone -/

/-- Settles O13: RESET apart, the four changes of `life` are those of OPEN, CLOSE and DESTROY. -/
theorem lifecycleFollowsItsArrows : Obligations.LifecycleFollowsItsArrows := by
  unfold Obligations.LifecycleFollowsItsArrows
  intro s t _ hstep
  cases stepEffect_of_next hstep with
  | idle ht => exact .inl (by rw [ht])
  | reset p rest hs ht => exact .inr (.inl ⟨⟨p, rest, hs⟩, by rw [ht]; rfl⟩)
  | settled ht => exact .inl (by rw [ht])
  | delivered w rest ht => exact .inl (by rw [ht]; rfl)
  | formatted rate ch rest _ _ _ ht => exact .inl (by rw [ht]; rfl)
  | opened rate ch rest _ _ hl ht => exact .inr (.inr (.inl ⟨hl, .inl (by rw [ht]; rfl)⟩))
  | openFailed w rest hl ht => exact .inr (.inr (.inl ⟨hl, .inr (by rw [ht]; rfl)⟩))
  | closed rest hl ht =>
    have hclosed : t.life = .closed := by rw [ht]; rfl
    rcases hl with hl | hl
    · exact .inr (.inr (.inr (.inl ⟨hl, hclosed⟩)))
    · exact .inr (.inr (.inr (.inr (.inl ⟨hl, .inl hclosed⟩))))
  | destroyed rest hl ht =>
    have hdestroyed : t.life = .destroyed := by rw [ht]; rfl
    rcases hl with hl | hl
    · exact .inr (.inr (.inr (.inr (.inr ⟨hl, hdestroyed⟩))))
    · exact .inr (.inr (.inr (.inr (.inl ⟨hl, .inr hdestroyed⟩))))
  | waits c _ _ ht => exact .inl (by rw [ht])
  | block b _ _ ht => exact .inl ht.life

/-- R19, R27: RESET and DESTROY apart, no step writes a coefficient or a pass-through register. -/
theorem coef_cfg_of_step {s t : State} (hstep : step s = .next t) (hreset : ∀ p rest, s.inputs ≠ .reset p :: rest)
    (hdestroy : t.life = .destroyed → s.life = .destroyed) : t.coef = s.coef ∧ t.cfg = s.cfg := by
  cases stepEffect_of_next hstep with
  | idle ht => rw [ht]; exact ⟨rfl, rfl⟩
  | reset p rest hs _ => exact absurd hs (hreset p rest)
  | settled ht => rw [ht]; exact ⟨rfl, rfl⟩
  | delivered w rest ht => rw [ht]; exact ⟨rfl, rfl⟩
  | formatted rate ch rest _ _ _ ht => rw [ht]; exact ⟨rfl, rfl⟩
  | opened rate ch rest _ _ _ ht => rw [ht]; exact ⟨rfl, rfl⟩
  | openFailed w rest _ ht => rw [ht]; exact ⟨rfl, rfl⟩
  | closed rest _ ht => rw [ht]; exact ⟨releaseBuffer_coef _, releaseBuffer_cfg _⟩
  | destroyed rest hl ht =>
    rw [hdestroy (by rw [ht]; rfl)] at hl
    rcases hl with hl | hl <;> exact absurd hl nofun
  | waits c _ _ ht => rw [ht]; exact ⟨rfl, rfl⟩
  | block b _ _ ht => rw [ht.frame]; exact ⟨rfl, rfl⟩

/-- Settles O14. -/
theorem coefficientsAreNeverWritten : Obligations.CoefficientsAreNeverWritten := by
  unfold Obligations.CoefficientsAreNeverWritten
  exact fun _ _ hstep hreset hdestroy => (coef_cfg_of_step hstep hreset hdestroy).1

/-- Settles O15. -/
theorem passThroughRegistersAreNeverWritten : Obligations.PassThroughRegistersAreNeverWritten := by
  unfold Obligations.PassThroughRegistersAreNeverWritten
  exact fun _ _ hstep hreset hdestroy => (coef_cfg_of_step hstep hreset hdestroy).2

/-- Settles O16: only a step that hands over a block leaves the history open. -/
theorem historyMovesOnlyWithABlock : Obligations.HistoryMovesOnlyWithABlock := by
  unfold Obligations.HistoryMovesOnlyWithABlock
  intro s t hi hstep hreset hdestroy hmoved
  cases stepEffect_of_next hstep with
  | idle ht => exact absurd (by rw [ht]) hmoved
  | reset p rest hs _ => exact absurd hs (hreset p rest)
  | settled ht => exact absurd (by rw [ht]) hmoved
  | delivered w rest ht => exact absurd (by rw [ht]; rfl) hmoved
  | formatted rate ch rest _ _ _ ht => exact absurd (by rw [ht]; rfl) hmoved
  | opened rate ch rest _ _ _ ht => exact absurd (by rw [ht]; rfl) hmoved
  | openFailed w rest _ ht => exact absurd (by rw [ht]; rfl) hmoved
  | closed rest _ ht => exact absurd (by rw [ht]; exact releaseBuffer_z _) hmoved
  | destroyed rest hl ht =>
    rw [hdestroy (by rw [ht]; rfl)] at hl
    rcases hl with hl | hl <;> exact absurd hl nofun
  | waits c _ _ ht => exact absurd (by rw [ht]) hmoved
  | block b hl he ht =>
    have hopened := hl hi.waitingFits
    exact ⟨hopened, ht.life.trans hopened, he hi.waitingFits, b, ht.blocks, ht.full⟩

/-- Settles O17: after the end of the stream no PROCESS filters, and only OPEN and RESET clear `eos`. -/
theorem endOfStreamIsSticky : Obligations.EndOfStreamIsSticky := by
  unfold Obligations.EndOfStreamIsSticky
  intro s t hi hstep hopened hopened' heos
  cases stepEffect_of_next hstep with
  | idle ht => rw [ht]; exact ⟨heos, rfl⟩
  | reset p rest _ ht => rw [ht] at hopened'; exact absurd hopened' nofun
  | settled ht => rw [ht]; exact ⟨heos, rfl⟩
  | delivered w rest ht => rw [ht]; exact ⟨heos, rfl⟩
  | formatted rate ch rest _ _ _ ht => rw [ht]; exact ⟨heos, rfl⟩
  | opened rate ch rest _ _ hl _ => rw [hopened] at hl; exact absurd hl nofun
  | openFailed w rest _ ht => rw [ht] at hopened'; exact absurd hopened' nofun
  | closed rest _ ht => rw [ht] at hopened'; exact absurd hopened' nofun
  | destroyed rest _ ht => rw [ht] at hopened'; exact absurd hopened' nofun
  | waits c _ _ ht => rw [ht]; exact ⟨heos, rfl⟩
  | block b _ he _ => rw [he hi.waitingFits] at heos; exact absurd heos nofun

/-- Settles O18: a command ends in one `deliver`, and only PROCESS hands over a block, the whole buffer. -/
theorem atMostOneResultAndOneBlockAStep : Obligations.AtMostOneResultAndOneBlockAStep := by
  unfold Obligations.AtMostOneResultAndOneBlockAStep
  intro s t hstep
  cases stepEffect_of_next hstep with
  | idle ht => rw [ht]; exact ⟨.inl rfl, .inl rfl⟩
  | reset p rest _ ht => rw [ht]; exact ⟨.inl rfl, .inl rfl⟩
  | settled ht => rw [ht]; exact ⟨.inl rfl, .inl rfl⟩
  | delivered w rest ht => rw [ht]; exact ⟨.inr ⟨w, rfl⟩, .inl rfl⟩
  | formatted rate ch rest _ _ _ ht => rw [ht]; exact ⟨.inr ⟨_, rfl⟩, .inl rfl⟩
  | opened rate ch rest _ _ _ ht => rw [ht]; exact ⟨.inr ⟨_, rfl⟩, .inl rfl⟩
  | openFailed w rest _ ht => rw [ht]; exact ⟨.inr ⟨w, rfl⟩, .inl rfl⟩
  | closed rest _ ht =>
    refine ⟨.inr ⟨Config.ok, ?_⟩, .inl ?_⟩
    · rw [ht, deliver_results, setLife_results, releaseBuffer_results]
    · rw [ht, deliver_blocks, setLife_blocks, releaseBuffer_blocks]
  | destroyed rest _ ht => rw [ht]; exact ⟨.inr ⟨_, rfl⟩, .inl rfl⟩
  | waits c _ _ ht => rw [ht]; exact ⟨.inl rfl, .inl rfl⟩
  | block b _ _ ht =>
    refine ⟨?_, .inr ⟨b, ht.blocks, ht.full⟩⟩
    rcases ht.outcome with ⟨-, hresults⟩ | ⟨-, hresult⟩
    · exact .inl hresults
    · exact .inr hresult

end Sys2Proof.Proofs
end

section
/-! PROOFS. Which steps go on: no fault, and a refusal exactly where the host breaks a duty. -/

namespace Sys2Proof.Proofs

open Sys2Proof.Machine Sys2Proof.Safety

/-! ### No fault -/

theorem processRead_not_fault {s : State} (ha : Memory.allocated s.buf = true) (f : Fault) :
    processRead s ≠ .fault f := by
  rcases processRead_cases s with ⟨r, data, rest, -, hk⟩ | ⟨-, hk⟩ | hk <;> rw [hk]
  case inr.inl => nofun
  case inr.inr => nofun
  by_cases hwf : readAnswerWf r data = true
  · by_cases hr : r.toInt ≤ 0
    · rw [processData, if_pos hwf, if_pos hr]; nofun
    · obtain ⟨u, b, -, -, hwrite⟩ := processData_reaches_write (s := { s with inputs := rest, waiting := none })
        hwf hr ha
      rw [hwrite]
      exact processWrite_not_fault _ f
  · rw [processData, if_neg hwf]; nofun

/-- Settles O11: only PROCESS touches the buffer at addresses of its own, and the invariant gives it a byte at
each of them. -/
theorem noStepFaults : Obligations.NoStepFaults := by
  unfold Obligations.NoStepFaults
  intro s hi f hstep
  rcases step_cases s with ⟨-, hk⟩ | ⟨p, rest, -, hk⟩ | ⟨hr, hc, rest, -, hk⟩ | ⟨ok, rest, -, hk⟩ |
    ⟨w, rest, i, -, -, hk⟩ | ⟨w, rest, op, -, -, hk⟩ | ⟨x, rest, c, -, -, -, hk⟩ | ⟨x, rest, -, -, -, hk⟩ <;>
    rw [hk] at hstep
  case inr.inr.inr.inr.inl =>
    obtain ⟨-, -, -, hread⟩ := exec_fault hstep
    exact processRead_not_fault (s := { s with inputs := rest }) hi.bufHeld f hread
  case inr.inr.inr.inr.inr.inr.inl =>
    cases c with
    | read => exact processRead_not_fault hi.bufHeld f hstep
    | write => exact processWrite_not_fault s f hstep
  all_goals exact absurd hstep nofun

/-! ### Refused commands -/

theorem exec_overlapping {s : State} (i : Instr) (hw : s.waiting ≠ none) : exec i s = .refused .overlapping := by
  cases i with
  | configure rate ch => unfold exec execConfigure; exact issue_overlapping _ hw
  | openStream => unfold exec execOpenStream; exact issue_overlapping _ hw
  | process => unfold exec execProcess; exact issue_overlapping _ hw
  | closeStream => unfold exec execCloseStream; exact issue_overlapping _ hw
  | destroy => unfold exec execDestroy; exact issue_overlapping _ hw

/-- Settles O21. -/
theorem overlappingCommandsAreRefused : Obligations.OverlappingCommandsAreRefused := by
  unfold Obligations.OverlappingCommandsAreRefused
  exact fun i _ hw => exec_overlapping i hw

theorem processWrite_ne_notLegal (s : State) (l : Life) : processWrite s ≠ .refused (.notLegal l) := by
  unfold processWrite
  rcases callHost_cases .write writeAnswer s (fun w s => finish w s) with
    ⟨x, rest, a, -, -, hk⟩ | ⟨-, hk⟩ | ⟨x, rest, -, -, -, hk⟩ <;> rw [hk] <;> nofun

theorem orFault_ne_refused {α : Type} {r : Except Fault α} {k : α → Out} {q : Refusal}
    (h : ∀ a, k a ≠ .refused q) : orFault r k ≠ .refused q := by
  cases r with
  | error f => nofun
  | ok a => exact h a

theorem processRead_ne_notLegal (s : State) (l : Life) : processRead s ≠ .refused (.notLegal l) := by
  rcases processRead_cases s with ⟨r, data, rest, -, hk⟩ | ⟨-, hk⟩ | hk <;> rw [hk]
  case inr.inl => nofun
  case inr.inr => nofun
  unfold processData
  split
  · split
    · nofun
    · exact orFault_ne_refused fun m => orFault_ne_refused fun u => orFault_ne_refused fun b =>
        processWrite_ne_notLegal _ l
  · nofun

/-- A legal command that is alone is not refused as not legal. -/
theorem exec_ne_notLegal {i : Instr} {s : State} (hw : s.waiting = none) (hl : legal i s.life = true) :
    exec i s ≠ .refused (.notLegal s.life) := by
  cases i with
  | configure rate ch =>
    rw [exec_configure_eq rate ch hw (by simpa [legal] using hl)]
    split
    · nofun
    · split <;> nofun
  | openStream =>
    obtain ⟨t, ht, -⟩ := openFormat_next s
    rw [exec_openStream_eq hw (by simpa [legal] using hl), ht]
    nofun
  | process =>
    rw [exec_process_eq hw (by simpa [legal] using hl)]
    split
    · nofun
    · exact processRead_ne_notLegal s s.life
  | closeStream => rw [exec_closeStream_eq hw (by simpa [legal] using hl)]; nofun
  | destroy => rw [exec_destroy_eq hw (by simpa [legal] using hl)]; nofun

theorem exec_eq_notLegal_iff (i : Instr) {s : State} (hw : s.waiting = none) :
    exec i s = .refused (.notLegal s.life) ↔ legal i s.life = false := by
  cases hl : legal i s.life with
  | false => exact ⟨fun _ => rfl, fun _ => exec_notLegal hw hl⟩
  | true => exact ⟨fun h => absurd h (exec_ne_notLegal hw hl), nofun⟩

/-- Settles O20: the refusal is that of the table `legal`, row by row. -/
theorem commandsAreLegalAsTheTableSays : Obligations.CommandsAreLegalAsTheTableSays := by
  unfold Obligations.CommandsAreLegalAsTheTableSays
  intro s hw
  simp only [exec_eq_notLegal_iff _ hw]
  simp [legal]

/-! ### The host's duties -/

theorem processWrite_goesOn_iff (s : State) :
    (∃ t, processWrite s = .next t) ↔ writeFits s.inputs = true := by
  unfold processWrite
  rcases callHost_cases .write writeAnswer s (fun w s => finish w s) with
    ⟨x, rest, a, hs, ha, hk⟩ | ⟨hs | ⟨x, rest, hs, ha, hx⟩, hk⟩ | ⟨x, rest, hs, ha, hx, hk⟩ <;>
    rw [hk, hs]
  · exact ⟨fun _ => by simp [writeFits, ha], fun _ => ⟨_, rfl⟩⟩
  · exact ⟨fun _ => rfl, fun _ => ⟨_, rfl⟩⟩
  · exact ⟨fun _ => by simp [writeFits, hx], fun _ => ⟨_, rfl⟩⟩
  · exact ⟨nofun, by simp [writeFits, ha, hx]⟩

/-- R40, R44, R109: with an answer of HostRead, PROCESS goes on where the answer keeps its duty and, if there is a
block to hand over, where what follows fits HostWrite. -/
theorem processData_goesOn_iff {s : State} (ha : Memory.allocated s.buf = true) (r : Word) (data : List Byte) :
    (∃ t, processData r data s = .next t) ↔
      readAnswerWf r data = true ∧ (r.toInt ≤ 0 ∨ writeFits s.inputs = true) := by
  by_cases hwf : readAnswerWf r data = true
  · by_cases hr : r.toInt ≤ 0
    · rw [processData, if_pos hwf, if_pos hr]
      exact ⟨fun _ => ⟨hwf, .inl hr⟩, fun _ => ⟨_, rfl⟩⟩
    · obtain ⟨u, b, hu, -, hwrite⟩ := processData_reaches_write hwf hr ha
      have hinputs : u.inputs = s.inputs := (sampleLoop_ok hu).1.inputs
      rw [hwrite, processWrite_goesOn_iff]
      simp [hwf, hr, hinputs]
  · rw [processData, if_neg hwf]
    exact ⟨nofun, fun h => absurd h.1 hwf⟩

theorem readFits_of_not_read {x : HostInput} {rest : List HostInput} (h : readAnswer x = none) :
    readFits (x :: rest) = !isAnswer x := by
  cases x with
  | read r data => exact absurd h nofun
  | _ => rfl

theorem processRead_goesOn_iff {s : State} (ha : Memory.allocated s.buf = true) :
    (∃ t, processRead s = .next t) ↔ readFits s.inputs = true := by
  unfold processRead
  rcases callHost_cases .read readAnswer s (fun a s => processData a.1 a.2 s) with
    ⟨x, rest, a, hs, hx, hk⟩ | ⟨hs | ⟨x, rest, hs, hp, hx⟩, hk⟩ | ⟨x, rest, hs, hp, hx, hk⟩ <;> rw [hk, hs]
  · rw [readAnswer_eq_some] at hx
    rw [processData_goesOn_iff (s := { s with inputs := rest, waiting := none }) ha, hx]
    simp [readFits]
  · exact ⟨fun _ => rfl, fun _ => ⟨_, rfl⟩⟩
  · simp [readFits_of_not_read hp, hx]
  · simp [readFits_of_not_read hp, hx]

theorem exec_goesOn_iff (i : Instr) {s : State} (ha : Memory.allocated s.buf = true) :
    (∃ t, exec i s = .next t) ↔ commandFits i s s.inputs = true := by
  by_cases hw : s.waiting = none
  case neg =>
    rw [exec_overlapping i hw]
    refine ⟨nofun, fun h => absurd (Option.isNone_iff_eq_none.mp ?_) hw⟩
    unfold commandFits at h
    simp only [Bool.and_eq_true] at h
    exact h.1.1
  cases hl : legal i s.life with
  | false => rw [exec_notLegal hw hl]; simp [commandFits, hl]
  | true =>
    cases i with
    | configure rate ch =>
      rw [exec_configure_eq rate ch hw (by simpa [legal] using hl)]
      refine ⟨fun _ => by simp [commandFits, hw, hl], fun _ => ?_⟩
      split
      · exact ⟨_, rfl⟩
      · split <;> exact ⟨_, rfl⟩
    | openStream =>
      obtain ⟨t, ht, -⟩ := openFormat_next s
      rw [exec_openStream_eq hw (by simpa [legal] using hl), ht]
      simp [commandFits, hw, hl]
    | process =>
      rw [exec_process_eq hw (by simpa [legal] using hl)]
      cases he : s.eos with
      | true => simp [commandFits, hw, hl, he]
      | false => simp [commandFits, hw, hl, he, processRead_goesOn_iff ha]
    | closeStream =>
      rw [exec_closeStream_eq hw (by simpa [legal] using hl)]
      simp [commandFits, hw, hl]
    | destroy =>
      rw [exec_destroy_eq hw (by simpa [legal] using hl)]
      simp [commandFits, hw, hl]

/-- Settles O12: input by input, the step goes on where the duty of that input is kept. -/
theorem stepGoesOnExactlyWhenTheHostKeepsItsDuties :
    Obligations.StepGoesOnExactlyWhenTheHostKeepsItsDuties := by
  unfold Obligations.StepGoesOnExactlyWhenTheHostKeepsItsDuties
  intro s hi
  have answer : ∀ x rest, s.inputs = x :: rest → isAnswer x = true →
      ((∃ t, step s = .next t) ↔ answersFit s.waiting s.inputs = true) := by
    intro x rest hs hx
    rw [step_answer hs hx, takeAnswer]
    cases s.waiting with
    | none => exact ⟨nofun, nofun⟩
    | some c =>
      cases c with
      | read => exact processRead_goesOn_iff hi.bufHeld
      | write => exact processWrite_goesOn_iff s
  unfold dutiesKept
  cases hs : s.inputs with
  | nil => rw [step_idle hs]; simp
  | cons x rest =>
    cases x with
    | command w =>
      cases hd : decode w with
      | ok i =>
        rw [step_command hs hd, exec_goesOn_iff (s := { s with inputs := rest }) i hi.bufHeld]
        simp only [hd]
        rfl
      | error e => cases e; rw [step_reserved hs hd]; simp [hd]
    | reset p => rw [step_reset hs]; simp
    | format hr hc => rw [step_format hs]; simp
    | alloc ok => rw [step_alloc hs]; simp
    | read r data => rw [answer _ rest hs rfl, hs]
    | write w => rw [answer _ rest hs rfl, hs]

/-! ### One input at a time -/

/-- Settles O4. -/
theorem stepRunsTheDecodedCommand : Obligations.StepRunsTheDecodedCommand := by
  unfold Obligations.StepRunsTheDecodedCommand
  refine ⟨fun s w rest i hs hd => step_command hs hd, fun s nbits w i hd => ?_⟩
  rw [step_command (withFetchWord_inputs s nbits w) (decode_of_decodeTableWord hd)]
  rfl

/-- Settles O5. -/
theorem reservedOpcodesAreRefused : Obligations.ReservedOpcodesAreRefused := by
  unfold Obligations.ReservedOpcodesAreRefused
  exact fun _ _ _ hs hop => step_reserved hs (decode_reserved hop)

/-- Settles O6. -/
theorem nothingChangesWhileTheHostDoesNothing : Obligations.NothingChangesWhileTheHostDoesNothing := by
  unfold Obligations.NothingChangesWhileTheHostDoesNothing
  exact ⟨fun _ hs => step_idle hs, fun _ _ _ _ hs => step_format hs, fun _ _ _ hs => step_alloc hs⟩

end Sys2Proof.Proofs
end

section
/-! PROOFS. RESET, OPEN, CLOSE and DESTROY (spec/43_lifecycle.md, spec/70_reset_and_hazards.md), and the buffer they
make valid or not. -/

namespace Sys2Proof.Proofs

open Sys2Proof.Machine Sys2Proof.Safety

/-! ### RESET -/

theorem readHist_of_silent {s : State} (h : s.z = Vector.replicate 9 silentHistory) (k : Fin 9) :
    readHist s k = silentHistory := by
  rw [readHist, h]
  exact Vector.getElem_replicate k.isLt

/-- Settles O7. -/
theorem resetGivesEveryRegisterItsValue : Obligations.ResetGivesEveryRegisterItsValue := by
  unfold Obligations.ResetGivesEveryRegisterItsValue
  intro s p rest hs
  refine ⟨_, step_reset hs, fun k => readHist_of_silent rfl k, rfl, rfl, rfl, rfl, rfl, rfl, ?bytes, rfl, rfl, rfl,
    rfl, rfl, rfl, rfl⟩
  case bytes => exact fun a => readByte_unspecifiedBuffer s.draws a

/-- Settles O8. -/
theorem resetStateHasTheDocumentedDefaults : Obligations.ResetStateHasTheDocumentedDefaults := by
  unfold Obligations.ResetStateHasTheDocumentedDefaults
  exact ⟨rfl, rfl, rfl, rfl, rfl, rfl, rfl, rfl, fun k => readHist_of_silent rfl k⟩

/-! ### OPEN -/

/-- R85: the pair OPEN validates, field by field. -/
theorem chosenPair_eq (hr hc : Word) (s : State) :
    chosenPair hr hc s =
      (if hr ≠ 0#32 ∧ hc ≠ 0#32 then hr else s.fmtRate, if hr ≠ 0#32 ∧ hc ≠ 0#32 then hc else s.fmtCh) := by
  unfold chosenPair
  split <;> rfl

/-- R85, R86: OPEN's body once the pair `(rate, ch)` is chosen. -/
theorem openFormat_eq {s : State} {rate ch : Word} (h : chosenPair s.answers.rate s.answers.ch s = (rate, ch)) :
    openFormat s =
      if fmtVRate rate && fmtVCh ch then openAlloc rate ch s
      else .next (deliver Config.errInvalidArg (setLife .failed s)) := by
  rw [openFormat, h]
  rfl

theorem readByte_zeroed (m : Memory) {a : Nat} (ha : a < 128) :
    readByte (writeBytes m 0 zeroBlock) a = some 0#8 := by
  have h := readByte_writeBytes_mem zeroBlock m 0 a (zeroBlock_length ▸ ha)
  rw [Nat.zero_add] at h
  rw [h]
  simp [zeroBlock]

theorem readByte_zeroed_outside (m : Memory) {a : Nat} (ha : 128 ≤ a) :
    readByte (writeBytes m 0 zeroBlock) a = readByte m a :=
  readByte_writeBytes_of_ge zeroBlock m 0 a (by rw [zeroBlock_length, Nat.zero_add]; exact ha)

/-- Settles O25: a valid pair leads to the allocation, which succeeds and fills the buffer. -/
theorem openSucceeds : Obligations.OpenSucceeds := by
  unfold Obligations.OpenSucceeds
  intro s rate ch hw hl hrate hch hr hc halloc
  have hpair : chosenPair s.answers.rate s.answers.ch s = (rate, ch) := by rw [chosenPair_eq, ← hrate, ← hch]
  have hopens : exec .openStream s =
      .next (deliver Config.ok (openWith rate ch (writeBytes s.buf 0 zeroBlock) s)) := by
    rw [exec_openStream_eq hw hl, openFormat_eq hpair, hr, hc, Bool.and_self, if_pos rfl, openAlloc_eq, halloc,
      if_pos rfl]
  have hzero := fun a (ha : a < 128) => readByte_zeroed s.buf ha
  have houtside := fun a (ha : 128 ≤ a) => readByte_zeroed_outside s.buf ha
  have hwf := writeBytes_zeroBlock_wf (m := s.buf)
  generalize writeBytes s.buf 0 zeroBlock = m at hopens hzero houtside hwf
  exact ⟨_, hopens, rfl, rfl, rfl, rfl, rfl, hzero, houtside, hwf, rfl, rfl, rfl, rfl, rfl, rfl, rfl, rfl, rfl, rfl⟩

/-- Settles O26: the validation of the pair comes first, and neither failure writes more than `life`. -/
theorem failingOpenWritesOnlyTheLifecycle : Obligations.FailingOpenWritesOnlyTheLifecycle := by
  unfold Obligations.FailingOpenWritesOnlyTheLifecycle
  intro s rate ch hw hl hrate hch
  have hpair : chosenPair s.answers.rate s.answers.ch s = (rate, ch) := by rw [chosenPair_eq, ← hrate, ← hch]
  rw [exec_openStream_eq hw hl, openFormat_eq hpair]
  refine ⟨fun hinvalid => ?invalidPair, fun hr hc halloc => ?noBuffer⟩
  case invalidPair =>
    rw [if_neg (by rcases hinvalid with h | h <;> simp [h]), deliver_eq_of_idle (s := setLife .failed s) hw]
    rfl
  case noBuffer =>
    rw [hr, hc, Bool.and_self, if_pos rfl, openAlloc_eq, halloc, if_neg Bool.false_ne_true,
      deliver_eq_of_idle (s := setLife .failed s) hw]
    rfl

/-! ### CLOSE and DESTROY -/

/-- Settles O27. -/
theorem closeReleasesTheBuffer : Obligations.CloseReleasesTheBuffer := by
  unfold Obligations.CloseReleasesTheBuffer
  intro s hw hl
  refine ⟨_, exec_closeStream_eq hw hl, ?_⟩
  cases hv : s.bufValid with
  | true =>
    have hbytes : ∀ a, readByte (unspecifiedBuffer s.draws) a =
        if a < 128 then some (Config.unspecifiedByte s.draws a) else none := readByte_unspecifiedBuffer s.draws
    simpa [hv] using hbytes
  | false => simp [hv]

/-- R84: in the state Destroyed no command is legal. -/
theorem not_legal_destroyed (i : Instr) : legal i .destroyed = false := by cases i <;> rfl

/-- Settles O28. -/
theorem destroyGivesUpTheInstance : Obligations.DestroyGivesUpTheInstance := by
  unfold Obligations.DestroyGivesUpTheInstance
  intro s hw hl
  exact ⟨_, exec_destroy_eq hw hl, rfl, rfl, rfl, rfl, rfl, fun i => exec_notLegal rfl (not_legal_destroyed i)⟩

/-! ### Waiting -/

/-- Settles O59: of the commands only PROCESS can end at a host call; OPEN's body delivers on each of its ways. -/
theorem onlyProcessWaits : Obligations.OnlyProcessWaits := by
  unfold Obligations.OnlyProcessWaits
  refine ⟨fun i s t h hwaits => ?onlyProcess, fun s hw hl => ?openCompletes⟩
  case onlyProcess =>
    cases i with
    | configure rate ch =>
      obtain ⟨-, -, ⟨-, -, rfl⟩ | ⟨-, -, rfl⟩ | rfl⟩ := exec_configure_next h <;> exact absurd rfl hwaits
    | openStream =>
      obtain ⟨-, -, hbody⟩ := exec_openStream_next h
      obtain ⟨u, hu, hnone, -⟩ := openFormat_next s
      rw [hu] at hbody
      cases hbody
      exact absurd hnone hwaits
    | process =>
      obtain ⟨-, hl, ⟨-, rfl⟩ | ⟨-, hread⟩⟩ := exec_process_next h
      · exact absurd rfl hwaits
      · refine ⟨rfl, hl, ?_⟩
        rcases processRead_next hread with rfl | ⟨r, rest, rfl⟩ | ⟨b, hb⟩
        · rfl
        · exact absurd rfl hwaits
        · rcases hb.outcome with ⟨-, hresults⟩ | ⟨hnone, -⟩
          · exact hresults
          · exact absurd hnone hwaits
    | closeStream =>
      obtain ⟨-, -, rfl⟩ := exec_closeStream_next h
      exact absurd rfl hwaits
    | destroy =>
      obtain ⟨-, -, rfl⟩ := exec_destroy_next h
      exact absurd rfl hwaits
  case openCompletes =>
    rw [exec_openStream_eq hw hl]
    rcases openFormat_cases s with ⟨-, ⟨-, h⟩ | ⟨-, h⟩⟩ | ⟨-, h⟩
    · exact ⟨_, _, h, rfl, rfl, .inl rfl⟩
    · exact ⟨_, _, h, rfl, rfl, .inr rfl⟩
    · exact ⟨_, _, h, rfl, rfl, .inr rfl⟩

/-! ### One canonical form -/

/-- R33: rising lists of cells that read alike at every address are equal, whatever the bounds they rise from. -/
theorem eq_of_readByte_eq {m m' : Memory} {lo lo' : Nat} (h : risingFrom lo m = true)
    (h' : risingFrom lo' m' = true) (heq : ∀ a, readByte m a = readByte m' a) : m = m' := by
  induction m generalizing m' lo lo' with
  | nil =>
    cases m' with
    | nil => rfl
    | cons e' m' => have := heq e'.1; simp [readByte] at this
  | cons e m ih =>
    cases m' with
    | nil => have := heq e.1; simp [readByte] at this
    | cons e' m' =>
      obtain ⟨a, v⟩ := e
      obtain ⟨b, w⟩ := e'
      simp only [risingFrom, Bool.and_eq_true] at h h'
      have hfst : a = b := by
        rcases Nat.lt_trichotomy a b with hlt | hab | hgt
        · have := heq a
          simp [readByte, hlt.ne, readByte_of_risingFrom h'.2 (.inl (Nat.lt_succ_of_lt hlt))] at this
        · exact hab
        · have := heq b
          simp [readByte, hgt.ne, readByte_of_risingFrom h.2 (.inl (Nat.lt_succ_of_lt hgt))] at this
      subst hfst
      have hsnd : v = w := by simpa [readByte] using heq a
      have htail : m = m' := ih h.2 h'.2 fun c => by
        by_cases hc : c = a
        · subst hc
          rw [readByte_of_risingFrom h.2 (.inl (Nat.lt_succ_self c)),
            readByte_of_risingFrom h'.2 (.inl (Nat.lt_succ_self c))]
        · simpa [readByte, hc] using heq c
      rw [hsnd, htail]

theorem eq_of_wf_of_readByte_eq {m m' : Memory} (h : Memory.wf m = true) (h' : Memory.wf m' = true)
    (heq : ∀ a, readByte m a = readByte m' a) : m = m' := eq_of_readByte_eq h h' heq

/-- Settles O54: the first entries agree, since the addresses after them are greater, and so on down the lists. -/
theorem buffersThatReadAlikeAreEqual : Obligations.BuffersThatReadAlikeAreEqual := by
  unfold Obligations.BuffersThatReadAlikeAreEqual
  exact fun _ _ h h' heq => eq_of_wf_of_readByte_eq h h' heq

/-- R85: of a canonical buffer OPEN leaves nothing. -/
theorem writeBytes_zeroBlock_eq {m m' : Memory} (h : Memory.wf m = true) (h' : Memory.wf m' = true) :
    writeBytes m 0 zeroBlock = writeBytes m' 0 zeroBlock := by
  refine eq_of_wf_of_readByte_eq (writeBytes_zeroBlock_wf h) (writeBytes_zeroBlock_wf h') fun a => ?_
  rcases Nat.lt_or_ge a 128 with ha | ha
  · rw [readByte_zeroed m ha, readByte_zeroed m' ha]
  · rw [readByte_zeroed_outside m ha, readByte_zeroed_outside m' ha, readByte_outside h ha, readByte_outside h' ha]

/-! ### Two runs that go alike -/

/-- `o'` ends as `o` does: with a next state that stands in the relation `R` to `o`'s, or with the same refusal. -/
def Alike (R : State → State → Prop) (o o' : Out) : Prop :=
  (∀ t, o = .next t → ∃ t', o' = .next t' ∧ R t t') ∧ (∀ r, o = .refused r → o' = .refused r)

theorem alike_next {R : State → State → Prop} {t t' : State} (h : R t t') : Alike R (.next t) (.next t') :=
  ⟨fun _ ht => by cases ht; exact ⟨t', rfl, h⟩, nofun⟩

theorem alike_refused (R : State → State → Prop) (r : Refusal) : Alike R (.refused r) (.refused r) :=
  ⟨nofun, fun _ => id⟩

/-- Steps on the same input go alike when RESET, the settling of answers, commands and resumed calls do. -/
theorem step_alike {R : State → State → Prop} {s s' : State} (hinputs : s'.inputs = s.inputs)
    (hwaiting : s'.waiting = s.waiting) (hidle : R s s')
    (hreset : ∀ p rest, R (applyReset p { s with inputs := rest }) (applyReset p { s' with inputs := rest }))
    (hformat : ∀ hr hc rest,
      R (setFormatAnswer hr hc { s with inputs := rest }) (setFormatAnswer hr hc { s' with inputs := rest }))
    (halloc : ∀ ok rest,
      R (setAllocAnswer ok { s with inputs := rest }) (setAllocAnswer ok { s' with inputs := rest }))
    (hexec : ∀ i rest, Alike R (exec i { s with inputs := rest }) (exec i { s' with inputs := rest }))
    (hresume : ∀ c, s.waiting = some c → Alike R (resume c s) (resume c s')) :
    Alike R (step s) (step s') := by
  rcases step_cases s with ⟨hs, hk⟩ | ⟨p, rest, hs, hk⟩ | ⟨hr, hc, rest, hs, hk⟩ | ⟨ok, rest, hs, hk⟩ |
    ⟨w, rest, i, hs, hd, hk⟩ | ⟨w, rest, op, hs, hd, hk⟩ | ⟨x, rest, c, hs, hx, hw, hk⟩ |
    ⟨x, rest, hs, hx, hw, hk⟩ <;> rw [hk] <;> rw [← hinputs] at hs
  · rw [step_idle hs]; exact alike_next hidle
  · rw [step_reset hs]; exact alike_next (hreset p rest)
  · rw [step_format hs]; exact alike_next (hformat hr hc rest)
  · rw [step_alloc hs]; exact alike_next (halloc ok rest)
  · rw [step_command hs hd]; exact hexec i rest
  · rw [step_reserved hs hd]; exact alike_refused R _
  · rw [step_answer hs hx, takeAnswer, hwaiting, hw]; exact hresume c hw
  · rw [step_answer hs hx, takeAnswer, hwaiting, hw]; exact alike_refused R _

/-- Commands from two states of the same lifecycle, format and host answers go alike when what their bodies make of
the two states is related. -/
theorem exec_alike {R : State → State → Prop} {s s' : State} (hwaiting : s'.waiting = s.waiting)
    (hlife : s'.life = s.life) (hrate : s'.fmtRate = s.fmtRate) (hch : s'.fmtCh = s.fmtCh)
    (hanswers : s'.answers = s.answers) (hdeliver : ∀ w, R (deliver w s) (deliver w s'))
    (hsetFmt : ∀ w rate ch, R (deliver w (setFmt rate ch s)) (deliver w (setFmt rate ch s')))
    (hopen : ∀ w rate ch, R (deliver w (openWith rate ch (writeBytes s.buf 0 zeroBlock) s))
      (deliver w (openWith rate ch (writeBytes s'.buf 0 zeroBlock) s')))
    (hfail : ∀ w, R (deliver w (setLife .failed s)) (deliver w (setLife .failed s')))
    (hprocess : s.life = .opened → Alike R (exec .process s) (exec .process s'))
    (hclose : ∀ w, R (deliver w (setLife .closed (releaseBuffer s))) (deliver w (setLife .closed (releaseBuffer s'))))
    (hdestroy : ∀ w, R (deliver w (setLife .destroyed (unspecifyRegisters s)))
      (deliver w (setLife .destroyed (unspecifyRegisters s')))) (i : Instr) :
    Alike R (exec i s) (exec i s') := by
  by_cases hw : s.waiting = none
  case neg =>
    rw [exec_overlapping i hw, exec_overlapping i (by rwa [hwaiting])]
    exact alike_refused R _
  have hw' : s'.waiting = none := hwaiting.trans hw
  cases hlegal : legal i s.life with
  | false =>
    rw [exec_notLegal hw hlegal, exec_notLegal hw' (by rwa [hlife]), hlife]
    exact alike_refused R _
  | true =>
    cases i with
    | configure rate ch =>
      have hl : s.life ≠ .destroyed := by simpa [legal] using hlegal
      rw [exec_configure_eq rate ch hw hl, exec_configure_eq rate ch hw' (by rwa [hlife]), hrate, hch]
      split
      · exact alike_next (hdeliver _)
      · split
        · exact alike_next (hsetFmt _ rate ch)
        · exact alike_next (hdeliver _)
    | openStream =>
      have hl : s.life = .created := by simpa [legal] using hlegal
      have hpair : chosenPair s'.answers.rate s'.answers.ch s' = chosenPair s.answers.rate s.answers.ch s := by
        rw [chosenPair_eq, chosenPair_eq, hanswers, hrate, hch]
      rcases hp : chosenPair s.answers.rate s.answers.ch s with ⟨rate, ch⟩
      rw [exec_openStream_eq hw hl, exec_openStream_eq hw' (hlife.trans hl), openFormat_eq hp,
        openFormat_eq (hpair.trans hp), openAlloc_eq, openAlloc_eq, hanswers]
      split
      · split
        · exact alike_next (hopen _ rate ch)
        · exact alike_next (hfail _)
      · exact alike_next (hfail _)
    | process => exact hprocess (by simpa [legal] using hlegal)
    | closeStream =>
      have hl : s.life = .opened ∨ s.life = .failed := by simpa [legal] using hlegal
      rw [exec_closeStream_eq hw hl, exec_closeStream_eq hw' (by rwa [hlife])]
      exact alike_next (hclose _)
    | destroy =>
      have hl : s.life = .closed ∨ s.life = .failed := by simpa [legal] using hlegal
      rw [exec_destroy_eq hw hl, exec_destroy_eq hw' (by rwa [hlife])]
      exact alike_next (hdestroy _)

/-! ### Another buffer while it is not valid -/

/-- `t'` is `t` but for the buffer, and wholly `t` where the element is opened. -/
def SameButBuffer (t t' : State) : Prop := ∃ m, t' = { t with buf := m } ∧ (t.life = .opened → m = t.buf)

theorem sameButBuffer_of_not_opened {t : State} (m : Memory) (h : t.life ≠ .opened) :
    SameButBuffer t { t with buf := m } := ⟨m, rfl, fun hl => absurd hl h⟩

theorem sameButBuffer_refl (t : State) : SameButBuffer t t := ⟨t.buf, rfl, fun _ => rfl⟩

theorem releaseBuffer_sameButBuffer (w : Word) (m : Memory) (s : State) :
    SameButBuffer (deliver w (setLife .closed (releaseBuffer s)))
      (deliver w (setLife .closed (releaseBuffer { s with buf := m }))) := by
  unfold releaseBuffer
  dsimp only
  split
  · exact sameButBuffer_refl _
  · exact sameButBuffer_of_not_opened m nofun

/-- D38: a command that does not meet an opened element does not read the buffer. -/
theorem exec_sameButBuffer (i : Instr) {s : State} {m : Memory} (hwf : Memory.wf s.buf = true)
    (hwf' : Memory.wf m = true) (hl : s.life ≠ .opened) :
    Alike SameButBuffer (exec i s) (exec i { s with buf := m }) :=
  exec_alike (s := s) (s' := { s with buf := m }) rfl rfl rfl rfl rfl
    (hdeliver := fun w => sameButBuffer_of_not_opened (t := deliver w s) m hl)
    (hsetFmt := fun w rate ch => sameButBuffer_of_not_opened (t := deliver w (setFmt rate ch s)) m hl)
    (hopen := fun w rate ch => by
      rw [writeBytes_zeroBlock_eq hwf' hwf]
      exact sameButBuffer_refl (deliver w (openWith rate ch (writeBytes s.buf 0 zeroBlock) s)))
    (hfail := fun w => sameButBuffer_of_not_opened (t := deliver w (setLife .failed s)) m nofun)
    (hprocess := fun h => absurd h hl)
    (hclose := fun w => releaseBuffer_sameButBuffer w m s)
    (hdestroy := fun _ => sameButBuffer_refl _) i

/-- Settles O58: outside the opened period nothing waits, so the buffer is met by commands only. -/
theorem nothingDependsOnAnInvalidBuffer : Obligations.NothingDependsOnAnInvalidBuffer := by
  unfold Obligations.NothingDependsOnAnInvalidBuffer
  intro s m hi hl hwf
  have hidle : s.waiting = none := by
    have hfits := hi.waitingFits
    unfold WaitingFits at hfits
    split at hfits
    · assumption
    · exact absurd hfits.1 hl
    · exact absurd hfits hl
  have halike : Alike SameButBuffer (step s) (step { s with buf := m }) :=
    step_alike rfl rfl (sameButBuffer_of_not_opened m hl) (fun _ _ => sameButBuffer_refl _)
      (fun _ _ _ => sameButBuffer_of_not_opened m hl) (fun _ _ => sameButBuffer_of_not_opened m hl)
      (fun i rest => exec_sameButBuffer i (s := { s with inputs := rest }) hi.bufWf hwf hl)
      (fun c hc => by rw [hidle] at hc; exact absurd hc nofun)
  refine ⟨fun t ht => ?_, halike.2⟩
  obtain ⟨_, hstep, m', rfl, hopened⟩ := halike.1 t ht
  exact ⟨m', hstep, hopened⟩

end Sys2Proof.Proofs
end

section
/-! PROOFS. PROCESS (spec/45_process.md): its ends, its waits, and the registers it does not read. -/

namespace Sys2Proof.Proofs

open Sys2Proof.Machine Sys2Proof.Safety

/-! ### PROCESS with its answers at hand -/

/-- Settles O29. -/
theorem processAfterTheEndOfStream : Obligations.ProcessAfterTheEndOfStream := by
  unfold Obligations.ProcessAfterTheEndOfStream
  intro s hw hl he
  rw [exec_process_eq hw hl, if_pos he, finish_eq, deliver_eq_of_idle hw]

/-- R101: before the end of the stream PROCESS goes on with HostRead's answer. -/
theorem exec_process_read {s : State} {r : Word} {data : List Byte} {rest : List HostInput} (hw : s.waiting = none)
    (hl : s.life = .opened) (he : s.eos = false) (hs : s.inputs = .read r data :: rest) :
    exec .process s = processData r data { s with inputs := rest } := by
  rw [exec_process_eq hw hl, if_neg (by simp [he]), processRead, callHost_answered (pick := readAnswer) hs rfl, hw]

/-- Settles O30. -/
theorem processForwardsANonPositiveRead : Obligations.ProcessForwardsANonPositiveRead := by
  unfold Obligations.ProcessForwardsANonPositiveRead
  intro s r rest hw hl he hs hr
  have hwf : readAnswerWf r [] = true := by
    rw [readAnswerWf_iff]
    exact ⟨hr.trans (by decide), (Int.toNat_of_nonpos hr).symm⟩
  rw [exec_process_read hw hl he hs, processData, if_pos hwf, if_pos hr, finish_eq,
    deliver_eq_of_idle (s := { s with inputs := rest }) hw]

/-- Settles O34. -/
theorem brokenReadsAreRefused : Obligations.BrokenReadsAreRefused := by
  unfold Obligations.BrokenReadsAreRefused
  intro s r data rest hw hl he hs hbroken
  have hwf : ¬ readAnswerWf r data = true := by
    rw [readAnswerWf_iff]
    rintro ⟨hle, hlen⟩
    rcases hbroken with h | h
    · exact absurd hle (Int.not_le.mpr h)
    · exact h hlen
  rw [exec_process_read hw hl he hs, processData, if_neg hwf]

/-- R107 to R109: the state in which a read of 1 to 128 bytes has been filtered and its block is made. -/
theorem exec_process_makes_block {s : State} {r : Word} {data : List Byte} {rest : List HostInput}
    (hw : s.waiting = none) (hl : s.life = .opened) (he : s.eos = false) (ha : Memory.allocated s.buf = true)
    (hs : s.inputs = .read r data :: rest) (hr : 1 ≤ r.toInt) (hwf : readAnswerWf r data = true) :
    ∃ u b, sampleLoop (samplesIn r) 0 (acceptRead r (writeBytes s.buf 0 data) { s with inputs := rest }) = .ok u ∧
      memRead u.buf 0 Config.bufSize = .ok b ∧
      exec .process s = processWrite { u with blocks := u.blocks ++ [b] } := by
  obtain ⟨u, b, hu, hb, hwrite⟩ :=
    processData_reaches_write (s := { s with inputs := rest }) hwf (Int.not_le.mpr hr) ha
  exact ⟨u, b, hu, hb, (exec_process_read hw hl he hs).trans hwrite⟩

/-- Settles O35. -/
theorem processWaitsAtItsHostCalls : Obligations.ProcessWaitsAtItsHostCalls := by
  unfold Obligations.ProcessWaitsAtItsHostCalls
  intro s hw hl he
  refine ⟨fun hs => ?atRead, fun r data ha hs hr hwf => ?atWrite⟩
  case atRead =>
    rw [exec_process_eq hw hl, if_neg (by simp [he]), processRead]
    exact callHost_waits (by rw [hs]; trivial) fun _ => readAnswer_none
  case atWrite =>
    obtain ⟨u, b, hu, hb, hwrite⟩ := exec_process_makes_block hw hl he ha hs hr hwf
    have hdata := (sampleLoop_ok hu).1
    have hwaits : processWrite { u with blocks := u.blocks ++ [b] } =
        .next { u with blocks := u.blocks ++ [b], waiting := some .write } :=
      callHost_waits (by rw [show u.inputs = [] from hdata.inputs]; trivial) fun _ => writeAnswer_none
    refine ⟨_, b, hwrite.trans hwaits, rfl, hdata.results, ?_, memRead_length hb⟩
    change u.blocks ++ [b] = s.blocks ++ [b]
    rw [hdata.blocks]
    rfl

/-! ### What the sample loop reads -/

/-- `f` with the registers the chain works on, those of `s`. -/
def graft (f s : State) : State := { f with z := s.z, coef := s.coef, draws := s.draws }

/-- `f` with the registers the sample loop works on, those of `s`. -/
def graftLoop (f s : State) : State := graft (setBuf s.buf f) s

theorem bqApply_graft (k : Fin 9) (x : F32) (f s : State) :
    bqApply k x (graft f s) = ((bqApply k x s).1, graft f (bqApply k x s).2) := rfl

theorem applyStages_graft (ks : List (Fin 9)) (x : F32) (f s : State) :
    applyStages ks x (graft f s) = ((applyStages ks x s).1, graft f (applyStages ks x s).2) := by
  induction ks generalizing x s with
  | nil => rfl
  | cons k ks ih => rw [applyStages, bqApply_graft]; exact ih _ _

/-- R99: a sample's run depends on no register but the history, the coefficients and the draws, and hands every
other one through. -/
theorem filterSample_graft (v : Sample) (f s : State) :
    filterSample v (graft f s) = ((filterSample v s).1, graft f (filterSample v s).2) := by
  have hdraws : (graft f s).draws = s.draws := rfl
  have huse : useDraws 1 (graft f s) = graft f (useDraws 1 s) := rfl
  rw [filterSample_eq, filterSample_eq, hdraws, huse, chainApplyAll, applyStages_graft]
  rfl

theorem sampleAt_graftLoop (i : Nat) (f s : State) :
    sampleAt i (graftLoop f s) = (sampleAt i s).map (graftLoop f) := by
  have hdecode : smpDecode i (graftLoop f s) = smpDecode i s := rfl
  rw [sampleAt, sampleAt, hdecode]
  cases smpDecode i s with
  | error e => rfl
  | ok v =>
    have hbuf : (graft (setBuf s.buf f) (filterSample v s).2).buf = s.buf := rfl
    dsimp only
    rw [graftLoop, filterSample_graft, smpEncode, smpEncode, hbuf, (filterSample_historyOnly v s).buf]
    cases memWrite s.buf i [highByte (filterSample v s).1, lowByte (filterSample v s).1] <;> rfl

/-- R107: the sample loop depends on no register but those and the buffer. -/
theorem sampleLoop_graftLoop (n i : Nat) (f s : State) :
    sampleLoop n i (graftLoop f s) = (sampleLoop n i s).map (graftLoop f) := by
  induction n generalizing i s with
  | zero => rfl
  | succ n ih =>
    rw [sampleLoop, sampleLoop, sampleAt_graftLoop]
    cases sampleAt i s with
    | error e => rfl
    | ok t => exact ih _ t

theorem sampleLoop_graftLoop_ok {n i : Nat} {s u : State} (f : State) (h : sampleLoop n i s = .ok u) :
    sampleLoop n i (graftLoop f s) = .ok (graftLoop f u) := by rw [sampleLoop_graftLoop, h]; rfl

end Sys2Proof.Proofs
end

section
/-! PROOFS. PROCESS goes on where it waited (spec/45_process.md R111); the stream format and the byte counter do not
bear on it (R110, spec/10_state.md R26). -/

namespace Sys2Proof.Proofs

open Sys2Proof.Machine Sys2Proof.Safety

/-! ### Resuming -/

/-- R111: a call that is answered, or answered for another call, does not ask whether a command waited for it. -/
theorem callHost_of_answer {α : Type} {c : Call} {pick : HostInput → Option α} {k : α → State → Out} {x : HostInput}
    {rest : List HostInput} (s : State) (w : Option Call) (hx : isAnswer x = true) :
    callHost c pick { s with inputs := x :: rest, waiting := w } k =
      callHost c pick { s with inputs := x :: rest } k := by
  cases hp : pick x with
  | some a => rw [callHost_answered rfl hp, callHost_answered rfl hp]
  | none => rw [callHost_stray rfl hp hx, callHost_stray rfl hp hx]

/-- R101: steps 3 to 6 with other inputs at hand. -/
theorem processData_inputs {s u : State} {r : Word} {data : List Byte} {b : List Byte} {m : Memory}
    (hwf : readAnswerWf r data = true) (hr : ¬ r.toInt ≤ 0) (hm : memWrite s.buf 0 data = .ok m)
    (hu : sampleLoop (samplesIn r) 0 (acceptRead r m s) = .ok u) (hb : memRead u.buf 0 Config.bufSize = .ok b)
    (xs : List HostInput) :
    processData r data { s with inputs := xs } =
      processWrite { u with inputs := xs, blocks := u.blocks ++ [b] } := by
  have hgraft : graftLoop (acceptRead r m { s with inputs := xs }) u = { u with inputs := xs } := by
    rw [(sampleLoop_ok hu).1]; rfl
  have hloop : sampleLoop (samplesIn r) 0 (acceptRead r m { s with inputs := xs }) = .ok { u with inputs := xs } :=
    (sampleLoop_graftLoop_ok (s := acceptRead r m s) _ hu).trans (congrArg Except.ok hgraft)
  have hread : memRead ({ u with inputs := xs } : State).buf 0 Config.bufSize = .ok b := hb
  rw [processData, if_pos hwf, if_neg hr, hm, orFault_ok, hloop, orFault_ok, sendBlock, hread, orFault_ok]

/-- All a wait of PROCESS with no input left can be: at HostRead with nothing read, or at HostWrite with one read
answer taken and filtered. -/
theorem exec_process_waits {s t : State} {pre : List HostInput}
    (h : exec .process { s with inputs := pre } = .next t) (hwaits : t.waiting ≠ none) (hnone : t.inputs = []) :
    s.waiting = none ∧ s.life = .opened ∧ s.eos = false ∧
    ((pre = [] ∧ t = { s with inputs := [], waiting := some .read }) ∨
      ∃ (r : Word) (data : List Byte) (u : State) (b : List Byte), pre = [.read r data] ∧
        t = { u with inputs := [], waiting := some .write, blocks := u.blocks ++ [b] } ∧
        ∀ xs, processData r data { s with inputs := xs } =
          processWrite { u with inputs := xs, blocks := u.blocks ++ [b] }) := by
  obtain ⟨hw, hl, ⟨-, rfl⟩ | ⟨he, hread⟩⟩ := exec_process_next h
  · exact absurd rfl hwaits
  refine ⟨hw, hl, he, ?_⟩
  rcases processRead_cases { s with inputs := pre } with ⟨r, data, rest, hs, hk⟩ | ⟨-, hk⟩ | hk <;> rw [hk] at hread
  · obtain ⟨hwf, ⟨-, rfl⟩ | ⟨hr, m, u, b, hm, hu, hb, hwrite⟩⟩ := processData_next hread
    · exact absurd rfl hwaits
    rcases processWrite_next hwrite with ⟨w, rest', -, rfl⟩ | rfl
    · exact absurd rfl hwaits
    have hrest : rest = [] := (sampleLoop_ok hu).1.inputs.symm.trans hnone
    refine .inr ⟨r, data, u, b, by rw [← hrest]; exact hs, by rw [← hnone], fun xs => ?_⟩
    rw [← processData_inputs hwf hr hm hu hb xs, ← hw]
  · cases hread
    exact .inl ⟨hnone, by rw [← hnone]⟩
  · exact absurd hread nofun

/-- Settles O22: only PROCESS waits; at HostRead it has done nothing yet, and at HostWrite what it has done does
not depend on the inputs that follow. -/
theorem commandsGoOnWhereTheyWaited : Obligations.CommandsGoOnWhereTheyWaited := by
  unfold Obligations.CommandsGoOnWhereTheyWaited
  intro i s t pre rest x _ h hwaits hnone hx
  obtain ⟨rfl, -, -⟩ := onlyProcessWaits.1 i _ _ h hwaits
  obtain ⟨hw, hl, he, ⟨rfl, rfl⟩ | ⟨r, data, u, b, rfl, rfl, hdata⟩⟩ := exec_process_waits h hwaits hnone
  · have hstart : exec .process { s with inputs := x :: rest } = processRead { s with inputs := x :: rest } := by
      rw [exec_process_eq (s := { s with inputs := x :: rest }) hw hl, if_neg (by simp [he])]
    rw [step_answer rfl hx, List.nil_append, hstart]
    exact callHost_of_answer s (some .read) hx
  · have hstart : exec .process { s with inputs := .read r data :: x :: rest } =
        processData r data { s with inputs := x :: rest } :=
      exec_process_read (s := { s with inputs := .read r data :: x :: rest }) hw hl he rfl
    rw [step_answer rfl hx, List.singleton_append, hstart, hdata]
    exact callHost_of_answer { u with blocks := u.blocks ++ [b] } (some .write) hx

/-! ### Registers PROCESS does not read -/

/-- The format replaced or kept, and `d` more bytes counted. -/
def retouch (rate ch : Word → Word) (d : Word) (s : State) : State :=
  { s with fmtRate := rate s.fmtRate, fmtCh := ch s.fmtCh, cnt := s.cnt + d }

/-- The outcome with its next state changed. -/
def mapNext (g : State → State) : Out → Out
  | .next t => .next (g t)
  | .fault f => .fault f
  | .refused r => .refused r

section
variable (rate ch : Word → Word) (d : Word)

theorem processWrite_retouch (s : State) :
    processWrite (retouch rate ch d s) = mapNext (retouch rate ch d) (processWrite s) := by
  unfold processWrite
  have hinputs : (retouch rate ch d s).inputs = s.inputs := rfl
  rcases callHost_cases .write writeAnswer s (fun w s => finish w s) with
    ⟨x, rest, a, hs, ha, hk⟩ | ⟨hs | ⟨x, rest, hs, ha, hx⟩, hk⟩ | ⟨x, rest, hs, ha, hx, hk⟩ <;>
    rw [hk] <;> rw [← hinputs] at hs
  · rw [callHost_answered hs ha]; rfl
  · exact callHost_waits (by rw [hs]; trivial) fun _ => writeAnswer_none
  · exact callHost_waits (by rw [hs]; exact hx) fun _ => writeAnswer_none
  · exact callHost_stray hs ha hx

theorem sendBlock_retouch (s : State) :
    sendBlock (retouch rate ch d s) = mapNext (retouch rate ch d) (sendBlock s) := by
  have hbuf : (retouch rate ch d s).buf = s.buf := rfl
  rw [sendBlock, sendBlock, hbuf]
  cases memRead s.buf 0 Config.bufSize with
  | error f => rfl
  | ok b => exact processWrite_retouch rate ch d { s with blocks := s.blocks ++ [b] }

theorem sampleLoop_retouch (n i : Nat) (s : State) :
    sampleLoop n i (retouch rate ch d s) = (sampleLoop n i s).map (retouch rate ch d) := by
  have hloop : sampleLoop n i (retouch rate ch d s) = (sampleLoop n i s).map (graftLoop (retouch rate ch d s)) :=
    sampleLoop_graftLoop n i (retouch rate ch d s) s
  rw [hloop]
  cases hu : sampleLoop n i s with
  | error f => rfl
  | ok u =>
    have hgraft : graftLoop (retouch rate ch d s) u = retouch rate ch d u := by rw [(sampleLoop_ok hu).1]; rfl
    exact congrArg Except.ok hgraft

theorem acceptRead_retouch (r : Word) (m : Memory) (s : State) :
    acceptRead r m (retouch rate ch d s) = retouch rate ch d (acceptRead r m s) :=
  have hcnt : s.cnt + d + r = s.cnt + r + d := add_right_comm s.cnt d r
  State.ext_fields rfl rfl rfl rfl rfl rfl rfl rfl hcnt rfl rfl rfl rfl rfl rfl rfl

theorem processData_retouch (r : Word) (data : List Byte) (s : State) :
    processData r data (retouch rate ch d s) = mapNext (retouch rate ch d) (processData r data s) := by
  have hbuf : (retouch rate ch d s).buf = s.buf := rfl
  rw [processData, processData, hbuf]
  split
  · split
    · rfl
    · cases memWrite s.buf 0 data with
      | error f => rfl
      | ok m =>
        rw [orFault_ok, orFault_ok, acceptRead_retouch, sampleLoop_retouch]
        cases sampleLoop (samplesIn r) 0 (acceptRead r m s) with
        | error f => rfl
        | ok u => exact sendBlock_retouch rate ch d u
  · rfl

theorem processRead_retouch (s : State) :
    processRead (retouch rate ch d s) = mapNext (retouch rate ch d) (processRead s) := by
  unfold processRead
  have hinputs : (retouch rate ch d s).inputs = s.inputs := rfl
  rcases callHost_cases .read readAnswer s (fun a s => processData a.1 a.2 s) with
    ⟨x, rest, a, hs, ha, hk⟩ | ⟨hs | ⟨x, rest, hs, ha, hx⟩, hk⟩ | ⟨x, rest, hs, ha, hx, hk⟩ <;>
    rw [hk] <;> rw [← hinputs] at hs
  · rw [callHost_answered hs ha]
    exact processData_retouch rate ch d a.1 a.2 { s with inputs := rest, waiting := none }
  · exact callHost_waits (by rw [hs]; trivial) fun _ => readAnswer_none
  · exact callHost_waits (by rw [hs]; exact hx) fun _ => readAnswer_none
  · exact callHost_stray hs ha hx

/-- R26, R110: PROCESS neither reads nor replaces the format, and only adds to the byte counter. -/
theorem exec_process_retouch (s : State) :
    exec .process (retouch rate ch d s) = mapNext (retouch rate ch d) (exec .process s) := by
  have hwaiting : (retouch rate ch d s).waiting = s.waiting := rfl
  have hlife : (retouch rate ch d s).life = s.life := rfl
  by_cases hw : s.waiting = none
  · cases hl : legal .process s.life with
    | false => rw [exec_notLegal hw hl, exec_notLegal (hwaiting.trans hw) hl]; rfl
    | true =>
      have hopened : s.life = .opened := by simpa [legal] using hl
      rw [exec_process_eq hw hopened, exec_process_eq (hwaiting.trans hw) (hlife.trans hopened)]
      change (if s.eos then _ else _) = _
      split
      · rfl
      · exact processRead_retouch rate ch d s
  · rw [exec_overlapping _ hw, exec_overlapping (s := retouch rate ch d s) _ hw]; rfl

end

theorem alike_mapNext {R : State → State → Prop} {g : State → State} (h : ∀ t, R t (g t)) (o : Out) :
    Alike R o (mapNext g o) :=
  ⟨fun t ht => ⟨g t, by rw [ht]; rfl, h t⟩, fun r hr => by rw [hr]; rfl⟩

/-- Settles O33: the format replaced before PROCESS is the format replaced after it. -/
theorem processIgnoresTheFormat : Obligations.ProcessIgnoresTheFormat := by
  unfold Obligations.ProcessIgnoresTheFormat
  intro s rate ch
  have hfmt : ∀ t : State, retouch (fun _ => rate) (fun _ => ch) 0#32 t = { t with fmtRate := rate, fmtCh := ch } :=
    fun t => by rw [retouch, BitVec.add_zero]
  rw [← hfmt, exec_process_retouch]
  refine ⟨fun t ht => ?_, fun q hq => by rw [hq]; rfl⟩
  rw [ht, ← hfmt]
  rfl

/-! ### The byte counter -/

/-- `t'` is `t` but for the byte counter. -/
def SameButCnt (t t' : State) : Prop := ∃ c, t' = { t with cnt := c }

theorem sameButCnt_refl (t : State) : SameButCnt t t := ⟨t.cnt, rfl⟩

theorem retouch_cnt (s : State) (c : Word) : retouch id id (c - s.cnt) s = { s with cnt := c } := by
  rw [retouch, BitVec.add_comm, BitVec.sub_add_cancel]
  rfl

theorem releaseBuffer_sameButCnt (w c : Word) (s : State) :
    SameButCnt (deliver w (setLife .closed (releaseBuffer s)))
      (deliver w (setLife .closed (releaseBuffer { s with cnt := c }))) := by
  unfold releaseBuffer
  dsimp only
  split <;> exact ⟨c, rfl⟩

theorem exec_sameButCnt (i : Instr) (s : State) (c : Word) :
    Alike SameButCnt (exec i s) (exec i { s with cnt := c }) :=
  exec_alike (s := s) (s' := { s with cnt := c }) rfl rfl rfl rfl rfl
    (hdeliver := fun _ => ⟨c, rfl⟩)
    (hsetFmt := fun _ _ _ => ⟨c, rfl⟩)
    (hopen := fun _ _ _ => by
      generalize writeBytes s.buf 0 zeroBlock = zeroed
      exact ⟨c, rfl⟩)
    (hfail := fun _ => ⟨c, rfl⟩)
    (hprocess := fun _ => by
      rw [← retouch_cnt, exec_process_retouch]
      exact alike_mapNext (fun t => ⟨_, rfl⟩) _)
    (hclose := fun w => releaseBuffer_sameButCnt w c s)
    (hdestroy := fun _ => sameButCnt_refl _) i

theorem resume_sameButCnt (k : Call) (s : State) (c : Word) :
    Alike SameButCnt (resume k s) (resume k { s with cnt := c }) := by
  rw [← retouch_cnt]
  cases k with
  | read => rw [resume, resume, processRead_retouch]; exact alike_mapNext (fun t => ⟨_, rfl⟩) _
  | write => rw [resume, resume, processWrite_retouch]; exact alike_mapNext (fun t => ⟨_, rfl⟩) _

/-- Settles O19: the counter is added to, replaced by RESET and DESTROY, and met by nothing else. -/
theorem nothingDependsOnTheByteCounter : Obligations.NothingDependsOnTheByteCounter := by
  unfold Obligations.NothingDependsOnTheByteCounter
  intro s c
  have halike : Alike SameButCnt (step s) (step { s with cnt := c }) :=
    step_alike rfl rfl ⟨c, rfl⟩ (fun _ _ => sameButCnt_refl _) (fun _ _ _ => ⟨c, rfl⟩) (fun _ _ => ⟨c, rfl⟩)
      (fun i rest => exec_sameButCnt i { s with inputs := rest } c) (fun k _ => resume_sameButCnt k s c)
  refine ⟨fun t ht => ?_, halike.2⟩
  obtain ⟨_, hstep, c', rfl⟩ := halike.1 t ht
  exact ⟨c', hstep⟩

end Sys2Proof.Proofs
end

section
/-! PROOFS. The block PROCESS hands over (spec/44_sample_conversion.md R99, spec/45_process.md R107 to R109). -/

namespace Sys2Proof.Proofs

open Sys2Proof.Machine Sys2Proof.Safety

/-! ### Bytes in a row -/

/-- The buffer holds the bytes at ascending addresses from `i`. -/
def HoldsAt (m : Memory) : Nat → List Byte → Prop
  | _, [] => True
  | i, v :: vs => readByte m i = some v ∧ HoldsAt m (i + 1) vs

theorem holdsAt_iff {m : Memory} {i : Nat} {vs : List Byte} :
    HoldsAt m i vs ↔ ∀ k (h : k < vs.length), readByte m (i + k) = some vs[k] := by
  induction vs generalizing i with
  | nil => simp [HoldsAt]
  | cons v vs ih =>
    rw [HoldsAt, ih]
    constructor
    · rintro ⟨hhead, htail⟩ k hk
      cases k with
      | zero => exact hhead
      | succ k => rw [← Nat.succ_add_eq_add_succ]; exact htail k (Nat.lt_of_succ_lt_succ hk)
    · intro h
      refine ⟨h 0 (Nat.succ_pos _), fun k hk => ?_⟩
      rw [show i + 1 + k = i + (k + 1) from Nat.succ_add_eq_add_succ i k]
      exact h (k + 1) (Nat.succ_lt_succ hk)

theorem holdsAt_writeBytes (m : Memory) (i : Nat) (vs : List Byte) : HoldsAt (writeBytes m i vs) i vs :=
  holdsAt_iff.mpr fun k hk => readByte_writeBytes_mem vs m i k hk

/-- Bytes at the same addresses, as many on both sides as there are, are the same bytes. -/
theorem eq_of_holdsAt {m : Memory} {i : Nat} {vs ws : List Byte} (hv : HoldsAt m i vs) (hw : HoldsAt m i ws)
    (hlen : vs.length = ws.length) : vs = ws := by
  refine List.ext_getElem hlen fun k hk hk' => Option.some.inj ?_
  rw [← holdsAt_iff.mp hv k hk, ← holdsAt_iff.mp hw k hk']

theorem holdsAt_take {m : Memory} {i : Nat} {vs : List Byte} (n : Nat) (h : HoldsAt m i vs) :
    HoldsAt m i (vs.take n) := by
  refine holdsAt_iff.mpr fun k hk => ?_
  rw [List.getElem_take]
  exact holdsAt_iff.mp h k (Nat.lt_of_lt_of_le hk (List.length_take_le' n vs))

theorem holdsAt_congr {m m' : Memory} {i : Nat} {vs : List Byte} (h : HoldsAt m i vs)
    (hsame : ∀ a, i ≤ a → readByte m' a = readByte m a) : HoldsAt m' i vs :=
  holdsAt_iff.mpr fun k hk => (hsame _ (Nat.le_add_right i k)).trans (holdsAt_iff.mp h k hk)

/-- MemRead of an allocated buffer answers the bytes it holds. -/
theorem holdsAt_of_memRead {m : Memory} {b : List Byte} (ha : Memory.allocated m = true)
    (h : memRead m 0 Config.bufSize = .ok b) : HoldsAt m 0 b := by
  obtain ⟨vs, hvs, -, hbytes⟩ := memRead_ok ha (addr := 0) (n := Config.bufSize) (Nat.le_refl _)
  rw [h] at hvs
  cases hvs
  exact holdsAt_iff.mpr hbytes

/-! ### Samples and their bytes -/

/-- R37: the whole samples of a list of bytes, and no last odd byte. -/
theorem bytesOf_samplesOf (bs : List Byte) : bytesOf (samplesOf bs) = bs.take (2 * (bs.length / 2)) := by
  induction bs using samplesOf.induct with
  | case1 hi lo bs ih =>
    have hhalf : 2 * ((bs.length + 1 + 1) / 2) = 2 * (bs.length / 2) + 1 + 1 := by omega
    have hhi : highByte (joinBytes hi lo) = hi := by
      apply BitVec.eq_of_toNat_eq
      rw [toNat_highByte, toNat_joinBytes]
      have := lo.isLt
      omega
    have hlo : lowByte (joinBytes hi lo) = lo := by
      apply BitVec.eq_of_toNat_eq
      rw [toNat_lowByte, toNat_joinBytes]
      have := lo.isLt
      omega
    rw [samplesOf_cons, bytesOf_cons, ih, hhi, hlo, List.length_cons, List.length_cons, hhalf, List.take_succ_cons,
      List.take_succ_cons]
  | case2 bs h =>
    match bs, h with
    | [], _ => rfl
    | [_], _ => simp [samplesOf, bytesOf]
    | hi :: lo :: bs, h => exact absurd rfl (h hi lo bs)

theorem samplesOf_length (bs : List Byte) : (samplesOf bs).length = bs.length / 2 := by
  have h := congrArg List.length (bytesOf_samplesOf bs)
  rw [bytesOf_length, List.length_take] at h
  omega

/-! ### The loop in place and the samples one after another -/

theorem setBuf_eq_graft (m : Memory) (s : State) : setBuf m s = graft (setBuf m s) s := rfl

theorem filterAll_graft (vs : List Sample) (f s : State) :
    filterAll vs (graft f s) = ((filterAll vs s).1, graft f (filterAll vs s).2) := by
  induction vs generalizing s with
  | nil => rfl
  | cons v vs ih => rw [filterAll_cons, filterAll_cons, filterSample_graft, ih]

/-- R107, R108: where the buffer holds the bytes of samples, the loop leaves the bytes of the samples filtered one
after another, and the history and the draws of that run. -/
theorem sampleLoop_eq_filterAll {vs : List Sample} {i : Nat} {s u : State} (hle : i + 2 * vs.length ≤ Config.bufSize)
    (hbytes : HoldsAt s.buf i (bytesOf vs)) (hu : sampleLoop vs.length i s = .ok u) :
    HoldsAt u.buf i (bytesOf (filterAll vs s).1) ∧ u.z = (filterAll vs s).2.z ∧
      u.draws = (filterAll vs s).2.draws := by
  induction vs generalizing i s with
  | nil => cases hu; exact ⟨trivial, rfl, rfl⟩
  | cons v vs ih =>
    rw [List.length_cons] at hle
    rw [bytesOf_cons] at hbytes
    obtain ⟨hhi, hlo, hrest⟩ := hbytes
    have hsample := sampleAt_eq (s := s) (i := i) (by omega) hhi hlo
    rw [joinBytes_highByte_lowByte] at hsample
    generalize hm : writeBytes s.buf i [highByte (filterSample v s).1, lowByte (filterSample v s).1] = m at hsample
    have hlater : HoldsAt (setBuf m (filterSample v s).2).buf (i + 1 + 1) (bytesOf vs) :=
      holdsAt_congr hrest fun a ha => by rw [setBuf_buf, ← hm]; exact readByte_writeBytes_of_ge _ _ _ _ ha
    rw [List.length_cons, sampleLoop, hsample] at hu
    obtain ⟨htail, hz, hdraws⟩ := ih (by omega) hlater hu
    rw [setBuf_eq_graft, filterAll_graft] at htail hz hdraws
    have hkept := (sampleLoop_ok hu).2.2.2
    rw [filterAll_cons, bytesOf_cons]
    refine ⟨⟨?_, ?_, htail⟩, hz, hdraws⟩
    · rw [hkept i (.inl (Nat.lt_add_of_pos_right Nat.zero_lt_two)), setBuf_buf, ← hm, readByte_writeBytes_pair_fst]
    · rw [hkept (i + 1) (.inl (Nat.lt_succ_self _)), setBuf_buf, ← hm, readByte_writeBytes_pair_snd]

/-! ### PROCESS with both answers at hand -/

theorem processWrite_answered {s : State} {w : Word} {rest : List HostInput} (hs : s.inputs = .write w :: rest) :
    processWrite s = .next (deliver w { s with inputs := rest }) := by
  rw [processWrite, callHost_answered (pick := writeAnswer) hs rfl]
  rfl

section
variable {s : State} {r w : Word} {data : List Byte} {rest : List HostInput}

/-- R40: a count of 1 to 128 with as many bytes keeps the host's duty. -/
theorem readAnswerWf_of_bounds (hr : 1 ≤ r.toInt) (hr' : r.toInt ≤ 128) (hlen : data.length = r.toNat) :
    readAnswerWf r data = true ∧ r.toNat ≤ 128 := by
  have hnat : r.toInt = r.toNat := by
    have h32 := r.isLt
    have hi := BitVec.toInt_eq_toNat_cond r
    split at hi <;> omega
  rw [readAnswerWf_iff]
  omega

/-- R101: PROCESS from a full pair of answers: the loop's state `u`, the block `b` it holds, and the end. -/
theorem exec_process_completes (hw : s.waiting = none) (hl : s.life = .opened) (he : s.eos = false)
    (ha : Memory.allocated s.buf = true) (hs : s.inputs = .read r data :: .write w :: rest)
    (hr : 1 ≤ r.toInt) (hwf : readAnswerWf r data = true) :
    ∃ u b, sampleLoop (samplesIn r) 0
        (acceptRead r (writeBytes s.buf 0 data) { s with inputs := .write w :: rest }) = .ok u ∧
      HoldsAt u.buf 0 b ∧ b.length = 128 ∧
      exec .process s = .next (deliver w { u with inputs := rest, blocks := u.blocks ++ [b] }) := by
  obtain ⟨u, b, hu, hb, hexec⟩ := exec_process_makes_block hw hl he ha hs hr hwf
  have hheld := (sampleLoop_ok hu).2.2.1 (allocated_writeBytes data ha 0)
  refine ⟨u, b, hu, holdsAt_of_memRead hheld hb, memRead_length hb, hexec.trans ?_⟩
  exact processWrite_answered (s := { u with blocks := u.blocks ++ [b] }) (sampleLoop_ok hu).1.inputs

end

/-- Settles O31: the loop changes the whole samples of the read and the history only, so the tail of the buffer is
what it was, and the odd byte what was deposited. -/
theorem processReadsFiltersAndWrites : Obligations.ProcessReadsFiltersAndWrites := by
  unfold Obligations.ProcessReadsFiltersAndWrites
  intro s r w data rest hw hl he ha hs hr hr' hlen
  obtain ⟨hwf, h128⟩ := readAnswerWf_of_bounds hr hr' hlen
  obtain ⟨u, b, hu, hb, hfull, hexec⟩ := exec_process_completes hw hl he ha hs hr hwf
  obtain ⟨hdata, hkeepsWf, -, hkept⟩ := sampleLoop_ok hu
  have hkept' : ∀ a, 2 * (r.toNat / 2) ≤ a → readByte u.buf a = readByte (writeBytes s.buf 0 data) a :=
    fun a h => hkept a (.inr (by rw [Nat.zero_add]; exact h))
  refine ⟨_, b, hexec, congrArg (· ++ [w]) hdata.results, congrArg (· ++ [b]) hdata.blocks, hfull, ?bytes, ?eos,
    hdata.cnt, ?tail, ?oddByte, ?canonical, hdata.coef, hdata.fmtRate, hdata.fmtCh, hdata.life.trans hl,
    hdata.bufValid, hdata.cfg, rfl, rfl, hdata.answers⟩
  case bytes => exact fun a h => by simpa using holdsAt_iff.mp hb a h
  case eos =>
    change u.eos = true ↔ _
    rw [hdata.eos, acceptRead_eos]
    simp [he]
  case tail =>
    intro a h
    exact (hkept' a (by omega)).trans (readByte_writeBytes_of_ge data s.buf 0 a (by omega))
  case oddByte =>
    intro hodd
    have hlast : r.toNat - 1 < data.length := by omega
    have hdeposited := readByte_writeBytes_mem data s.buf 0 (r.toNat - 1) hlast
    rw [Nat.zero_add] at hdeposited
    rw [List.getElem?_eq_getElem hlast]
    exact (hkept' _ (by omega)).trans hdeposited
  case canonical =>
    exact fun h => hkeepsWf (writeBytes_wf data h (by rw [hlen, Nat.zero_add]; exact h128))

/-- R99, R107, R108: the bytes read are the bytes of the samples they hold, so the loop leaves what `filterAll`
gives, and the block is the buffer. -/
theorem exec_process_filters {s : State} {r w : Word} {data : List Byte} {rest : List HostInput}
    (hw : s.waiting = none) (hl : s.life = .opened) (he : s.eos = false) (ha : Memory.allocated s.buf = true)
    (hs : s.inputs = .read r data :: .write w :: rest) (hr : 1 ≤ r.toInt) (hr' : r.toInt ≤ 128)
    (hlen : data.length = r.toNat) :
    ∃ t b, exec .process s = .next t ∧ t.blocks = s.blocks ++ [b] ∧ b.length = 128 ∧
      b.take (2 * (r.toNat / 2)) = bytesOf (filterAll (samplesOf data) s).1 ∧
      t.z = (filterAll (samplesOf data) s).2.z ∧ t.draws = (filterAll (samplesOf data) s).2.draws := by
  obtain ⟨hwf, h128⟩ := readAnswerWf_of_bounds hr hr' hlen
  obtain ⟨u, b, hu, hb, hfull, hexec⟩ := exec_process_completes hw hl he ha hs hr hwf
  have hcount : (samplesOf data).length = r.toNat / 2 := by rw [samplesOf_length, hlen]
  have hread : HoldsAt (writeBytes s.buf 0 data) 0 (bytesOf (samplesOf data)) := by
    rw [bytesOf_samplesOf]
    exact holdsAt_take _ (holdsAt_writeBytes s.buf 0 data)
  rw [samplesIn, ← hcount] at hu
  obtain ⟨hout, hz, hdraws⟩ := sampleLoop_eq_filterAll (by unfold Config.bufSize; omega) hread hu
  have hsame : acceptRead r (writeBytes s.buf 0 data) { s with inputs := .write w :: rest } =
      graft (acceptRead r (writeBytes s.buf 0 data) { s with inputs := .write w :: rest }) s := rfl
  rw [hsame, filterAll_graft] at hout hz hdraws
  refine ⟨_, b, hexec, congrArg (· ++ [b]) (sampleLoop_ok hu).1.blocks, hfull, ?_, hz, hdraws⟩
  refine eq_of_holdsAt (holdsAt_take _ hb) hout ?_
  rw [List.length_take, hfull, bytesOf_length, filterAll_length, hcount]
  omega

/-- Settles O32. -/
theorem processIsTheStreamFilter : Obligations.ProcessIsTheStreamFilter := by
  unfold Obligations.ProcessIsTheStreamFilter
  intro s r w data rest hw hl he ha hs hr hr' hlen
  obtain ⟨t, b, hexec, hblocks, -, hbytes, hz, hdraws⟩ := exec_process_filters hw hl he ha hs hr hr' hlen
  exact ⟨t, b, hexec, hblocks, by rw [samplesOf_length, hlen], hbytes, hz, hdraws⟩

/-- Settles O57: `sampleAt` with the names of R91, R92 and R55 written out. -/
theorem sampleIsNormalisedFilteredAndRescaled : Obligations.SampleIsNormalisedFilteredAndRescaled := by
  unfold Obligations.SampleIsNormalisedFilteredAndRescaled
  intro i s hi lo hle hhi hlo
  have hsample := sampleAt_eq (s := s) (i := i) hle hhi hlo
  rw [← filterOne_eq] at hsample
  refine ⟨_, _, _, _, _, _, hsample, rfl, rfl, rfl, rfl, ?high, ?low, ?otherBytes, ?frame⟩
  case high => rw [setBuf_buf, readByte_writeBytes_pair_fst, Option.map_some, toNat_highByte]; rfl
  case low => rw [setBuf_buf, readByte_writeBytes_pair_snd, Option.map_some, toNat_lowByte]; rfl
  case otherBytes => exact fun _ h h' => readByte_writeBytes_pair_of_ne _ _ _ h h'
  case frame =>
    have hchain := chainApplyAll_historyOnly (fdiv s.draws (i2f (joinBytes hi lo)) 0x46FFFE00#32)
      { s with draws := s.draws + 1 }
    unfold filterOne
    dsimp only
    rw [hchain]
    rfl

end Sys2Proof.Proofs
end

section
/-! PROOFS. Correct rounding (spec/40_biquad.md R67, R68, R71). -/

namespace Sys2Proof.Proofs

open Sys2Proof.Machine Sys2Proof.Safety

/-! ### The nearest integer -/

/-- `i` steps of `d` from the floor: at least one down, none, one up, or at least two up. -/
theorem mul_step_cases {d : Nat} (hd : 0 < d) (i : Int) :
    i ≤ -1 ∧ i * d ≤ -d ∨ i = 0 ∧ i * d = 0 ∨ i = 1 ∧ i * d = d ∨ 2 ≤ i ∧ 2 * d ≤ i * d := by
  have hd' : (0 : Int) < d := by exact_mod_cast hd
  rcases lt_trichotomy i 0 with h | h | h
  · exact .inl ⟨by omega, by nlinarith⟩
  · exact .inr (.inl ⟨h, by rw [h, zero_mul]⟩)
  · rcases (show i = 1 ∨ 2 ≤ i by omega) with h | h
    · exact .inr (.inr (.inl ⟨h, by rw [h, one_mul]⟩))
    · exact .inr (.inr (.inr ⟨h, by nlinarith⟩))

/-- How far `i` steps from the floor of a quotient lie from it. -/
theorem floor_add_mul_sub (n d : Nat) (i : Int) : ((n / d : Nat) + i) * d - n = i * d - (n % d : Nat) := by
  have hn : (d : Int) * (n / d : Nat) + (n % d : Nat) = n := by exact_mod_cast Nat.div_add_mod n d
  linear_combination hn

/-- R68: `roundNat` is an integer nearest to the quotient, and where another is as near it is even. -/
theorem roundNat_nearest (n : Nat) {d : Nat} (hd : 0 < d) (j : Int) :
    ((roundNat n d : Int) * d - n).natAbs ≤ (j * d - n).natAbs ∧
    (j ≠ roundNat n d → ((roundNat n d : Int) * d - n).natAbs = (j * d - n).natAbs → roundNat n d % 2 = 0) := by
  have hmod := Nat.mod_lt n hd
  obtain ⟨i, rfl⟩ : ∃ i : Int, j = (n / d : Nat) + i := ⟨j - (n / d : Nat), by omega⟩
  have hup := floor_add_mul_sub n d 1
  have hdown := floor_add_mul_sub n d 0
  have hcases := mul_step_cases hd i
  rw [floor_add_mul_sub]
  unfold roundNat
  generalize i * (d : Int) = off at *
  generalize n / d = q at *
  generalize n % d = rem at *
  split
  · push_cast
    rw [hup]
    omega
  · rw [add_zero] at hdown
    rw [hdown]
    omega

/-- Up to halfway to the next integer. -/
theorem roundNat_le_of_lt_half {n d b : Nat} (h : 2 * n < (2 * b + 1) * d) : roundNat n d ≤ b := by
  have hd : 0 < d := Nat.pos_of_ne_zero fun h0 => by simp [h0] at h
  have hdiv := Nat.div_add_mod n d
  have hq : n / d ≤ b := Nat.le_of_lt_succ (Nat.div_lt_of_lt_mul (by nlinarith))
  unfold roundNat
  split
  case isFalse => exact hq
  case isTrue hround =>
    refine Nat.lt_of_le_of_ne hq fun heq => ?_
    rw [heq] at hdiv
    have hexpand : (2 * b + 1) * d = 2 * (d * b) + d := by ring
    omega

/-- From halfway on, where the integer below is odd. -/
theorem lt_roundNat_of_half_le {n d b : Nat} (hd : 0 < d) (hb : b % 2 = 1) (h : (2 * b + 1) * d ≤ 2 * n) :
    b < roundNat n d := by
  have hdiv := Nat.div_add_mod n d
  have hq : b ≤ n / d := (Nat.le_div_iff_mul_le hd).mpr (by nlinarith)
  have hexpand : (2 * b + 1) * d = 2 * (d * b) + d := by ring
  unfold roundNat
  split
  case isTrue => exact Nat.lt_succ_of_le hq
  case isFalse hround =>
    refine Nat.lt_of_le_of_ne hq fun heq => hround ?_
    rw [← heq] at hdiv ⊢
    omega

theorem le_roundNat {n d b : Nat} (hd : 0 < d) (h : b * d ≤ n) : b ≤ roundNat n d := by
  have hq : b ≤ n / d := (Nat.le_div_iff_mul_le hd).mpr h
  unfold roundNat
  split <;> omega

/-- An exact quotient is not rounded. -/
theorem roundNat_mul (k : Nat) {d : Nat} (hd : 0 < d) : roundNat (k * d) d = k := by
  simp [roundNat, Nat.mul_div_cancel k hd, hd.ne]

/-! ### The binade -/

theorem lt_two_pow_binade (q : Nat) : q < 2 ^ (24 + binade q) :=
  Nat.lt_of_lt_of_le Nat.lt_log2_self (Nat.pow_le_pow_right Nat.two_pos (by unfold binade; omega))

theorem binade_eq_zero_or (q : Nat) : binade q = 0 ∨ 2 ^ (23 + binade q) ≤ q := by
  by_cases h : q.log2 ≤ 23
  · exact .inl (Nat.sub_eq_zero_of_le h)
  · have hq : q ≠ 0 := fun h0 => by rw [h0] at h; exact h (by decide)
    have hexp : 23 + binade q = q.log2 := by unfold binade; omega
    exact .inr (hexp ▸ Nat.log2_self_le hq)

/-- The binade is told by the bounds. -/
theorem binade_eq {q e : Nat} (hlow : e = 0 ∨ 2 ^ (23 + e) ≤ q) (hhigh : q < 2 ^ (24 + e)) : binade q = e := by
  have h1 : 23 + binade q < 24 + e ∨ binade q = 0 := by
    rcases binade_eq_zero_or q with h | h
    · exact .inr h
    · exact .inl ((Nat.pow_lt_pow_iff_right Nat.one_lt_two).mp (Nat.lt_of_le_of_lt h hhigh))
  have h2 : e = 0 ∨ 23 + e < 24 + binade q := by
    rcases hlow with h | h
    · exact .inl h
    · exact .inr ((Nat.pow_lt_pow_iff_right Nat.one_lt_two).mp (Nat.lt_of_le_of_lt h (lt_two_pow_binade q)))
  omega

/-! ### The significand -/

/-- R68: the significand `roundMag` gives to `num / den` units, rounded in the binade of the quotient. -/
def significand (num den : Nat) : Nat := roundNat num (den * 2 ^ binade (num / den))

theorem roundMag_eq (num den : Nat) :
    roundMag num den = min (binade (num / den) * 2 ^ 23 + significand num den) infMag := rfl

theorem scaled_pos {den : Nat} (hden : 0 < den) (e : Nat) : 0 < den * 2 ^ e :=
  Nat.mul_pos hden (Nat.two_pow_pos e)

theorem significand_le (num : Nat) {den : Nat} (hden : 0 < den) : significand num den ≤ 2 ^ 24 := by
  refine roundNat_le_of_lt_half ?_
  have hpos := scaled_pos hden (binade (num / den))
  have h : num < 2 ^ (24 + binade (num / den)) * den := (Nat.div_lt_iff_lt_mul hden).mp (lt_two_pow_binade _)
  rw [pow_add, mul_assoc, mul_comm (2 ^ binade (num / den))] at h
  nlinarith

theorem significand_normal (num : Nat) {den : Nat} (hden : 0 < den) :
    binade (num / den) = 0 ∨ 2 ^ 23 ≤ significand num den := by
  rcases binade_eq_zero_or (num / den) with h | h
  · exact .inl h
  · rw [Nat.le_div_iff_mul_le hden, pow_add, mul_assoc, mul_comm (2 ^ binade (num / den))] at h
    exact .inr (le_roundNat (scaled_pos hden _) h)

/-- R68: halfway past the largest finite number, in units. -/
def overflowUnits : Nat := 2 ^ 277 - 2 ^ 252

theorem two_mul_overflowUnits : 2 * overflowUnits = (2 * (2 ^ 24 - 1) + 1) * 2 ^ 253 := by decide

theorem roundMag_of_overflow {num den : Nat} (hden : 0 < den) (h : overflowUnits * den ≤ num) :
    roundMag num den = infMag := by
  have hq : overflowUnits ≤ num / den := (Nat.le_div_iff_mul_le hden).mpr h
  have he : 252 < binade (num / den) := by
    have hlt : 2 ^ 276 < 2 ^ (24 + binade (num / den)) :=
      (show 2 ^ 276 < overflowUnits by decide).trans_le (hq.trans (lt_two_pow_binade _).le)
    have := (Nat.pow_lt_pow_iff_right Nat.one_lt_two).mp hlt
    omega
  have hk := (significand_normal num hden).resolve_left (by omega)
  have hk' : binade (num / den) = 253 → 2 ^ 24 - 1 < significand num den := fun h253 => by
    refine lt_roundNat_of_half_le (scaled_pos hden _) (by decide) ?_
    rw [h253]
    calc (2 * (2 ^ 24 - 1) + 1) * (den * 2 ^ 253) = 2 * overflowUnits * den := by rw [two_mul_overflowUnits]; ring
      _ = 2 * (overflowUnits * den) := mul_assoc ..
      _ ≤ 2 * num := Nat.mul_le_mul_left 2 h
  rw [roundMag_eq]
  refine Nat.min_eq_right ?_
  unfold infMag
  omega

theorem roundMag_of_lt {num den : Nat} (hden : 0 < den) (h : num < overflowUnits * den) :
    roundMag num den = binade (num / den) * 2 ^ 23 + significand num den ∧ roundMag num den < infMag := by
  have he : binade (num / den) ≤ 253 := by
    rcases binade_eq_zero_or (num / den) with h0 | h0
    · omega
    · have hlt : 2 ^ (23 + binade (num / den)) < 2 ^ 277 :=
        h0.trans_lt (((Nat.div_lt_iff_lt_mul hden).mpr h).trans (by decide))
      have := (Nat.pow_lt_pow_iff_right Nat.one_lt_two).mp hlt
      omega
  have hk := significand_le num hden
  have hk' : binade (num / den) = 253 → significand num den ≤ 2 ^ 24 - 1 := fun h253 => by
    refine roundNat_le_of_lt_half ?_
    rw [h253]
    calc 2 * num < 2 * (overflowUnits * den) := Nat.mul_lt_mul_of_pos_left h Nat.two_pos
      _ = 2 * overflowUnits * den := (mul_assoc ..).symm
      _ = (2 * (2 ^ 24 - 1) + 1) * (den * 2 ^ 253) := by rw [two_mul_overflowUnits]; ring
  have hlt : binade (num / den) * 2 ^ 23 + significand num den < infMag := by unfold infMag; omega
  rw [roundMag_eq, Nat.min_eq_left hlt.le]
  exact ⟨rfl, hlt⟩

/-! ### The value of a rounded magnitude -/

/-- R54: a significand `k` in the binade `e`, also where rounding has carried it into the next binade. -/
theorem units_signed {neg : Bool} {e k : Nat} (hk : k ≤ 2 ^ 24) (hnormal : e = 0 ∨ 2 ^ 23 ≤ k)
    (hlt : e * 2 ^ 23 + k < infMag) : units (signed neg (e * 2 ^ 23 + k)) = k * 2 ^ e := by
  unfold infMag at hlt
  unfold units
  rw [fExp_signed (by omega), fFrac_signed (by omega)]
  rcases (show k < 2 ^ 23 ∨ k = 2 ^ 24 ∨ 2 ^ 23 ≤ k ∧ k < 2 ^ 24 by omega) with h | h | ⟨h, h'⟩
  · have he : e = 0 := hnormal.resolve_right (by omega)
    rw [he, if_pos (by omega)]
    omega
  · have hexp : (e * 2 ^ 23 + k) / 2 ^ 23 = e + 1 + 1 := by omega
    have hfrac : (e * 2 ^ 23 + k) % 2 ^ 23 = 0 := by omega
    rw [hexp, hfrac, if_neg (Nat.succ_ne_zero _), Nat.add_sub_cancel, h, pow_succ]
    ring
  · have hexp : (e * 2 ^ 23 + k) / 2 ^ 23 = e + 1 := by omega
    have hfrac : 2 ^ 23 + (e * 2 ^ 23 + k) % 2 ^ 23 = k := by omega
    rw [hexp, hfrac, if_neg (Nat.succ_ne_zero _), Nat.add_sub_cancel]

theorem units_roundMag {num den : Nat} (neg : Bool) (hden : 0 < den) (h : num < overflowUnits * den) :
    units (signed neg (roundMag num den)) = significand num den * 2 ^ binade (num / den) := by
  obtain ⟨heq, hlt⟩ := roundMag_of_lt hden h
  rw [heq] at hlt ⊢
  exact units_signed (significand_le num hden) (significand_normal num hden) hlt

/-- R54: from `2^(23 + e)` units on, the values are multiples of `2^e` units. -/
theorem two_pow_dvd_units {c : F32} {e : Nat} (h : 2 ^ (23 + e) ≤ units c) : 2 ^ e ∣ units c := by
  have hfrac : fFrac c < 2 ^ 23 := Nat.mod_lt _ (Nat.two_pow_pos 23)
  unfold units at *
  split at h
  case isTrue =>
    have : 2 ^ 23 ≤ 2 ^ (23 + e) := Nat.pow_le_pow_right Nat.two_pos (by omega)
    omega
  case isFalse hexp =>
    rw [if_neg hexp]
    have hlt : 2 ^ (23 + e) < 2 ^ (24 + (fExp c - 1)) := by
      rw [pow_add 2 24]
      exact h.trans_lt (Nat.mul_lt_mul_of_pos_right (by omega) (Nat.two_pow_pos _))
    have hle := (Nat.pow_lt_pow_iff_right Nat.one_lt_two).mp hlt
    exact (pow_dvd_pow 2 (by omega)).trans (Nat.dvd_mul_left _ _)

theorem natAbs_value (c : F32) : (value c).natAbs = units c := by
  unfold value
  split <;> omega

theorem value_signed {neg : Bool} {mag : Nat} (h : mag < 2 ^ 31) :
    value (signed neg mag) = if neg then -(units (signed neg mag) : Int) else units (signed neg mag) := by
  rw [value, fSign_signed h]

/-- R68: of the values `v` of the format none is nearer to `num / den` units than the rounded significand, and
where another is as near the significand is even. A value off the grid of the quotient's binade lies below that
binade, whose first value is nearer. -/
theorem significand_nearest (num : Nat) {den : Nat} (hden : 0 < den) {v : Int}
    (hv : 2 ^ (23 + binade (num / den)) ≤ v.natAbs → 2 ^ binade (num / den) ∣ v.natAbs) :
    ((significand num den * 2 ^ binade (num / den) : Nat) * den - num : Int).natAbs ≤ (v * den - num).natAbs ∧
    (v ≠ (significand num den * 2 ^ binade (num / den) : Nat) →
      ((significand num den * 2 ^ binade (num / den) : Nat) * den - num : Int).natAbs = (v * den - num).natAbs →
      significand num den % 2 = 0) := by
  have hpos := scaled_pos hden (binade (num / den))
  have hnearest : ∀ j : Int,
      ((significand num den : Int) * (den * 2 ^ binade (num / den) : Nat) - num).natAbs ≤
        (j * (den * 2 ^ binade (num / den) : Nat) - num).natAbs ∧
      (j ≠ significand num den →
        ((significand num den : Int) * (den * 2 ^ binade (num / den) : Nat) - num).natAbs =
          (j * (den * 2 ^ binade (num / den) : Nat) - num).natAbs → significand num den % 2 = 0) :=
    roundNat_nearest num hpos
  have hbinade := binade_eq_zero_or (num / den)
  rw [Nat.le_div_iff_mul_le hden, pow_add] at hbinade
  rw [pow_add] at hv
  generalize significand num den = k at *
  generalize binade (num / den) = e at *
  have hscale : ∀ j : Int, j * 2 ^ e * den = j * (den * 2 ^ e : Nat) := fun j => by push_cast; ring
  have hk : ((k * 2 ^ e : Nat) : Int) * den = k * (den * 2 ^ e : Nat) := by push_cast; ring
  rw [hk]
  by_cases hgrid : 2 ^ e ∣ v.natAbs
  · obtain ⟨j, rfl⟩ : ∃ j : Int, v = j * 2 ^ e := by
      obtain ⟨j, hj⟩ := Int.natCast_dvd.mpr hgrid
      exact ⟨j, by rw [hj]; push_cast; ring⟩
    rw [hscale]
    refine ⟨(hnearest j).1, fun hne => (hnearest j).2 fun hj => hne ?_⟩
    rw [hj]
    push_cast
    ring
  · have hbelow : v.natAbs < 2 ^ 23 * 2 ^ e := Nat.lt_of_not_le (mt hv hgrid)
    have hfirst : 2 ^ 23 * 2 ^ e * den ≤ num := hbinade.resolve_left fun h0 => hgrid (by rw [h0]; exact one_dvd _)
    have hlt : v * den < ((2 ^ 23 * 2 ^ e : Nat) : Int) * den := by
      have hden' : (0 : Int) < den := by exact_mod_cast hden
      exact mul_lt_mul_of_pos_right (by omega) hden'
    have hle : ((2 ^ 23 * 2 ^ e : Nat) : Int) * den ≤ num := by exact_mod_cast hfirst
    have hat := (hnearest (2 ^ 23 : Nat)).1
    have hfirst' : ((2 ^ 23 : Nat) : Int) * (den * 2 ^ e : Nat) = ((2 ^ 23 * 2 ^ e : Nat) : Int) * den := by
      push_cast; ring
    rw [hfirst'] at hat
    omega

/-! ### The rounded result -/

/-- R68: `roundMag` rounds the magnitude of `num / den` units correctly, whatever the sign. -/
theorem roundsTo_signed (neg : Bool) (num : Nat) {den : Nat} (hden : 0 < den) :
    RoundsTo (if neg then -(num : Int) else num) den (signed neg (roundMag num den)) := by
  have habs : (if neg then -(num : Int) else num).natAbs = num := by split <;> simp
  unfold RoundsTo
  rw [habs]
  split
  case isTrue hover =>
    have hnum : 0 < num := Nat.lt_of_lt_of_le (Nat.mul_pos (by decide) hden) hover
    rw [roundMag_of_overflow hden hover, fSign_signed (by decide)]
    refine ⟨isInf_signed_inf neg, ?_⟩
    cases neg <;> simp [hnum]
  case isFalse hin =>
    have hlt : num < overflowUnits * den := Nat.lt_of_not_le hin
    obtain ⟨hmag, hfin⟩ := roundMag_of_lt hden hlt
    have hmag31 : roundMag num den < 2 ^ 31 := by unfold infMag at hfin; omega
    refine ⟨isFinite_signed hfin, fun c _ => ?_⟩
    have hunits := units_roundMag neg hden hlt
    have hlast : (signed neg (roundMag num den)).getLsbD 0 = false ↔ significand num den % 2 = 0 := by
      rw [BitVec.getLsbD, signed_toNat hmag31, Nat.testBit_zero, decide_eq_false_iff_not, hmag]
      split <;> omega
    rw [value_signed hmag31, hunits, hlast]
    have hvalue : ∀ e, 2 ^ (23 + e) ≤ (value c).natAbs → 2 ^ e ∣ (value c).natAbs := fun e => by
      rw [natAbs_value]; exact two_pow_dvd_units
    cases neg with
    | false => exact significand_nearest num hden (hvalue _)
    | true =>
      have hflip : ∀ v : Int, (v * den - -(num : Int)).natAbs = (-v * den - num).natAbs := fun v => by
        rw [← Int.natAbs_neg]; congr 1; ring
      have hnear := significand_nearest num hden (v := -value c) (by rw [Int.natAbs_neg]; exact hvalue _)
      simp only [if_true, hflip, neg_neg]
      exact ⟨hnear.1, fun hne => hnear.2 fun h => hne (by omega)⟩

/-! ### The four operations -/

/-- An integer from its sign and its magnitude. -/
theorem sign_natAbs (x : Int) : (if decide (x < 0) then -(x.natAbs : Int) else x.natAbs) = x := by
  by_cases h : x < 0
  · rw [if_pos (decide_eq_true h)]; omega
  · rw [if_neg (by simpa using h)]; omega

theorem fadd_roundsTo (d : Nat) {a b : F32} (ha : isFinite a = true) (hb : isFinite b = true) :
    RoundsTo (value a + value b) 1 (fadd d a b) := by
  rw [fadd_finite ha hb]
  split
  case isTrue hzero =>
    have hmag : roundMag 0 1 = 0 := by decide
    have h := roundsTo_signed (fSign a && fSign b) 0 Nat.one_pos
    rw [hmag] at h
    rw [hzero]
    simpa using h
  case isFalse =>
    have h := roundsTo_signed (decide (value a + value b < 0)) (value a + value b).natAbs Nat.one_pos
    rwa [sign_natAbs] at h

/-- Settles O44: one rounding of the exact sum; a difference is the sum with the negation. -/
theorem additionRoundsToNearestEven : Obligations.AdditionRoundsToNearestEven := by
  unfold Obligations.AdditionRoundsToNearestEven
  intro d a b ha hb
  refine ⟨fadd_roundsTo d ha hb, ?_⟩
  rw [sub_eq_add_neg, ← value_fneg]
  exact fadd_roundsTo d ha (by rwa [isFinite_fneg])

/-- R70: the magnitude of a product is the product of the magnitudes, its sign the exclusive or. -/
theorem value_mul_value (a b : F32) :
    value a * value b =
      if fSign a != fSign b then -((units a * units b : Nat) : Int) else (units a * units b : Nat) := by
  unfold value
  cases fSign a <;> cases fSign b <;> simp

/-- Settles O45: one rounding of the exact product, in units of 2^-298. -/
theorem multiplicationRoundsToNearestEven : Obligations.MultiplicationRoundsToNearestEven := by
  unfold Obligations.MultiplicationRoundsToNearestEven
  intro d a b ha hb
  rw [fmul_finite ha hb, value_mul_value]
  exact roundsTo_signed _ _ (by decide)

theorem sign_value {b : F32} (hb : isZero b = false) : (value b).sign = if fSign b then -1 else 1 := by
  have hpos : 0 < units b := Nat.pos_of_ne_zero fun h => by simp [(isZero_iff_units b).mpr h] at hb
  unfold value
  cases fSign b
  · exact Int.sign_eq_one_of_pos (by simpa using hpos)
  · exact Int.sign_eq_neg_one_of_neg (by simpa using hpos)

/-- Settles O46: one rounding of the exact quotient of the magnitudes. -/
theorem divisionRoundsToNearestEven : Obligations.DivisionRoundsToNearestEven := by
  unfold Obligations.DivisionRoundsToNearestEven
  intro d a b ha hb hz
  have hpos : 0 < units b := Nat.pos_of_ne_zero fun h => by simp [(isZero_iff_units b).mpr h] at hz
  have hnum : (value b).sign * value a * 2 ^ 149 =
      if fSign a != fSign b then -((units a * 2 ^ 149 : Nat) : Int) else (units a * 2 ^ 149 : Nat) := by
    rw [sign_value hz, value]
    cases fSign a <;> cases fSign b <;> simp
  rw [fdiv_finite ha hb hz, hnum]
  exact roundsTo_signed _ _ hpos

end Sys2Proof.Proofs
end

section
/-! PROOFS. Exact results: infinities and NaNs (spec/40_biquad.md R69), zeros (R70), the identity and the silent stage
(R73), samples as binary32 values (spec/44_sample_conversion.md R94). -/

namespace Sys2Proof.Proofs

open Sys2Proof.Machine Sys2Proof.Safety

/-! ### Infinities and NaNs -/

theorem isInf_not_isZero {a : F32} (h : isInf a = true) : isZero a = false := by
  unfold isInf at h; unfold isZero; simp_all

theorem fadd_inf_finite {a b : F32} (ha : isInf a = true) (hb : isFinite b = true) (d : Nat) : fadd d a b = a := by
  simp [fadd, ha, isInf_not_isNaN ha, isFinite_not_isNaN hb, isFinite_not_isInf hb]

theorem fadd_finite_inf {a b : F32} (ha : isFinite a = true) (hb : isInf b = true) (d : Nat) : fadd d a b = b := by
  simp [fadd, hb, isInf_not_isNaN hb, isFinite_not_isNaN ha, isFinite_not_isInf ha]

theorem fadd_inf_inf {a b : F32} (ha : isInf a = true) (hb : isInf b = true) (d : Nat) :
    fadd d a b = if fSign a = fSign b then a else nanOf d := by
  simp [fadd, ha, hb, isInf_not_isNaN ha, isInf_not_isNaN hb]

theorem fmul_comm (d : Nat) (a b : F32) : fmul d a b = fmul d b a := by
  unfold fmul
  rw [Bool.or_comm (isNaN a), Bool.or_comm (isInf a), Bool.or_comm (isZero a), Nat.mul_comm (units a)]
  cases fSign a <;> cases fSign b <;> rfl

theorem fmul_inf {a b : F32} (ha : isInf a = true) (hb : isNaN b = false) (d : Nat) :
    fmul d a b = if isZero b then nanOf d else signed (fSign a != fSign b) infMag := by
  simp [fmul, ha, hb, isInf_not_isNaN ha, isInf_not_isZero ha]

/-- Settles O47. -/
theorem infinitiesAndNaNs : Obligations.InfinitiesAndNaNs := by
  unfold Obligations.InfinitiesAndNaNs
  intro d a b
  refine ⟨fun h => ?nan, fun ha hb hne => ?oppositeInfs, fun ha hb heq => ?sameInfs, fun ha hb => ?infFinite,
    fun ha hb => ?finiteInf, fun ha hb hz => ?infTimes, fun ha hz => ?infTimesZero⟩
  case nan => simp only [fadd_of_isNaN h, fsub_of_isNaN h, fmul_of_isNaN h, fdiv_of_isNaN h, isNaN_nanOf, and_self]
  case oppositeInfs =>
    rw [fsub, fadd_inf_inf ha hb, fadd_inf_inf ha (by rwa [isInf_fneg]), if_neg hne, fSign_fneg,
      if_pos (Bool.eq_not.mpr hne)]
    exact ⟨isNaN_nanOf d, rfl⟩
  case sameInfs =>
    rw [fsub, fadd_inf_inf ha hb, fadd_inf_inf ha (by rwa [isInf_fneg]), if_pos heq, fSign_fneg,
      if_neg (by simp [heq])]
    exact ⟨rfl, isNaN_nanOf d⟩
  case infFinite => exact ⟨fadd_inf_finite ha hb d, fadd_inf_finite ha (by rwa [isFinite_fneg]) d⟩
  case finiteInf =>
    rw [fsub, fadd_finite_inf ha hb, fadd_finite_inf ha (by rwa [isInf_fneg]), isInf_fneg, fSign_fneg]
    exact ⟨rfl, hb, rfl⟩
  case infTimes =>
    rw [fmul_comm d b a, fmul_inf ha hb, hz, if_neg Bool.false_ne_true, fSign_signed (by decide)]
    exact ⟨isInf_signed_inf _, isInf_signed_inf _, rfl, rfl⟩
  case infTimesZero =>
    rw [fmul_comm d b a, fmul_inf ha (isFinite_not_isNaN (isFinite_of_isZero hz)), hz, if_pos rfl]
    exact ⟨isNaN_nanOf d, isNaN_nanOf d⟩

/-! ### Zeros -/

theorem isZero_signed_zero (neg : Bool) : isZero (signed neg 0) = true := by cases neg <;> decide

theorem roundMag_zero (den : Nat) : roundMag 0 den = 0 := by
  have hbinade : binade 0 = 0 := by decide
  simp [roundMag, hbinade, roundNat]

/-- R70: a product with a zero is a zero of the product's sign. -/
theorem fmul_of_isZero {a b : F32} (ha : isFinite a = true) (hb : isFinite b = true)
    (hz : isZero a = true ∨ isZero b = true) (d : Nat) : fmul d a b = signed (fSign a != fSign b) 0 := by
  have hunits : units a * units b = 0 := by simpa [isZero_iff_units] using hz
  rw [fmul_finite ha hb, hunits, roundMag_zero]

theorem value_of_isZero {a : F32} (h : isZero a = true) : value a = 0 := by
  rw [← Int.natAbs_eq_zero, natAbs_value, (isZero_iff_units a).mp h]

/-- R70: a sum that is zero is negative only where both its terms are. -/
theorem fadd_of_sum_zero {a b : F32} (ha : isFinite a = true) (hb : isFinite b = true)
    (h : value a + value b = 0) (d : Nat) : fadd d a b = signed (fSign a && fSign b) 0 := by
  rw [fadd_finite ha hb, if_pos h]

/-- Settles O48. -/
theorem signsOfZeros : Obligations.SignsOfZeros := by
  unfold Obligations.SignsOfZeros
  intro d
  refine ⟨fun a b ha hb hz => ?product, ?pp, ?nn, ?pn, ?np, fun a ha _ => ?cancel, fun a b => rfl⟩
  case product =>
    rw [fmul_of_isZero ha hb hz, fSign_signed (by decide)]
    exact ⟨isZero_signed_zero _, rfl⟩
  case cancel =>
    rw [fsub, fadd_of_sum_zero ha (by rwa [isFinite_fneg]) (by rw [value_fneg]; omega), fSign_fneg, Bool.and_not_self]
    rfl
  all_goals
    rw [fadd_of_sum_zero (by decide) (by decide) (by decide)]
    decide

/-! ### Exact results -/

/-- R68: a value of the format is not rounded. -/
theorem units_roundMag_mul (neg : Bool) {m den : Nat} (hden : 0 < den) (hlt : m < overflowUnits)
    (hgrid : 2 ^ binade m ∣ m) : units (signed neg (roundMag (m * den) den)) = m := by
  have hsignificand : significand (m * den) den * 2 ^ binade m = m := by
    obtain ⟨j, hj⟩ := hgrid
    have hnum : m * den = j * (den * 2 ^ binade m) := by
      calc m * den = 2 ^ binade m * j * den := by rw [← hj]
        _ = j * (den * 2 ^ binade m) := by ring
    rw [significand, Nat.mul_div_cancel m hden, hnum, roundNat_mul j (scaled_pos hden _), mul_comm, ← hj]
  rw [units_roundMag neg hden (Nat.mul_lt_mul_of_pos_right hlt hden), Nat.mul_div_cancel m hden, hsignificand]

/-- R54: a pattern from its sign and its magnitude bits. -/
theorem signed_fSign (x : F32) : signed (fSign x) (x.toNat % 2 ^ 31) = x := by
  apply BitVec.eq_of_toNat_eq
  have := x.isLt
  rw [signed_toNat (mag_lt x), fSign_eq]
  by_cases h : 2 ^ 31 ≤ x.toNat
  · rw [decide_eq_true h, if_pos rfl]; omega
  · rw [decide_eq_false h, if_neg Bool.false_ne_true]; omega

/-- R68: a finite magnitude comes out of the rounding as it went in. -/
theorem roundMag_units_mul {x : F32} (hx : isFinite x = true) {den : Nat} (hden : 0 < den) :
    roundMag (units x * den) den = x.toNat % 2 ^ 31 := by
  have hexp : fExp x ≠ 255 := by simpa [isFinite] using hx
  have hfrac : fFrac x < 2 ^ 23 := Nat.mod_lt _ (Nat.two_pow_pos 23)
  have hmag : x.toNat % 2 ^ 31 = fExp x * 2 ^ 23 + fFrac x := by unfold fExp fFrac; omega
  have hexp' : fExp x < 256 := Nat.mod_lt _ (by decide)
  rw [roundMag_eq, significand, Nat.mul_div_cancel _ hden, hmag]
  unfold units
  split
  case isTrue h0 =>
    rw [binade_eq (e := 0) (.inl rfl) (hfrac.trans (by decide)), pow_zero, mul_one, roundNat_mul _ hden, h0]
    refine Nat.min_eq_left ?_
    unfold infMag
    omega
  case isFalse h0 =>
    have hbinade : binade ((2 ^ 23 + fFrac x) * 2 ^ (fExp x - 1)) = fExp x - 1 := by
      refine binade_eq (.inr ?_) ?_
      · rw [pow_add]
        exact Nat.mul_le_mul_right _ (Nat.le_add_right _ _)
      · rw [pow_add]
        exact Nat.mul_lt_mul_of_pos_right (by omega) (Nat.two_pow_pos _)
    rw [hbinade, mul_assoc, mul_comm (2 ^ (fExp x - 1)) den, roundNat_mul _ (scaled_pos hden _)]
    have hsum : (fExp x - 1) * 2 ^ 23 + (2 ^ 23 + fFrac x) = fExp x * 2 ^ 23 + fFrac x := by omega
    rw [hsum]
    refine Nat.min_eq_left ?_
    unfold infMag
    omega

/-! ### The identity stage and the silent stage -/

theorem fmul_one {x : F32} (hx : isFinite x = true) (d : Nat) : fmul d 0x3F800000#32 x = x := by
  have hone : units 0x3F800000#32 = 2 ^ 149 := by decide
  have hsign : fSign 0x3F800000#32 = false := by decide
  rw [fmul_finite (by decide) hx, hone, hsign, Bool.false_bne, mul_comm, roundMag_units_mul hx (Nat.two_pow_pos 149),
    signed_fSign]

theorem isZero_fadd {x z : F32} (hx : isZero x = true) (hz : isZero z = true) (d : Nat) :
    isZero (fadd d x z) = true := by
  rw [fadd_of_sum_zero (isFinite_of_isZero hx) (isFinite_of_isZero hz)
    (by rw [value_of_isZero hx, value_of_isZero hz]; rfl)]
  exact isZero_signed_zero _

theorem isZero_fsub {x z : F32} (hx : isZero x = true) (hz : isZero z = true) (d : Nat) :
    isZero (fsub d x z) = true := isZero_fadd hx (by rwa [isZero_fneg]) d

/-- Of the two zeros the positive one is all zero bits. -/
theorem eq_zero_of_isZero {x : F32} (hz : isZero x = true) (hne : x ≠ 0x80000000#32) : x = 0x00000000#32 := by
  have hmag : x.toNat % 2 ^ 31 = 0 := by
    have h : fExp x = 0 ∧ fFrac x = 0 := by simpa [isZero] using hz
    unfold fExp fFrac at h
    omega
  rw [← signed_fSign x, hmag] at hne ⊢
  cases hs : fSign x
  · rfl
  · rw [hs] at hne; exact absurd rfl hne

/-- R70: a zero added to anything finite but a negative zero changes nothing. -/
theorem fadd_zero {x z : F32} (hx : isFinite x = true) (hne : x ≠ 0x80000000#32) (hz : isZero z = true) (d : Nat) :
    fadd d x z = x := by
  cases hzero : isZero x with
  | true =>
    rw [fadd_of_sum_zero hx (isFinite_of_isZero hz) (by rw [value_of_isZero hzero, value_of_isZero hz]; rfl),
      eq_zero_of_isZero hzero hne]
    rfl
  | false =>
    have hpos : 0 < units x := Nat.pos_of_ne_zero fun h => by simp [(isZero_iff_units x).mpr h] at hzero
    have hvalue : value x ≠ 0 := by rw [← Int.natAbs_ne_zero, natAbs_value]; omega
    have hsign : decide (value x < 0) = fSign x := by
      unfold value
      cases fSign x with
      | false => simp
      | true => simp [hpos]
    rw [fadd_finite hx (isFinite_of_isZero hz), value_of_isZero hz, add_zero, if_neg hvalue, hsign, natAbs_value,
      ← Nat.mul_one (units x), roundMag_units_mul hx Nat.one_pos, signed_fSign]

theorem fsub_zero {x z : F32} (hx : isFinite x = true) (hne : x ≠ 0x80000000#32) (hz : isZero z = true) (d : Nat) :
    fsub d x z = x := fadd_zero hx hne (by rwa [isZero_fneg]) d

theorem isZero_fmul {a b : F32} (ha : isFinite a = true) (hb : isFinite b = true)
    (hz : isZero a = true ∨ isZero b = true) (d : Nat) : isZero (fmul d a b) = true := by
  rw [fmul_of_isZero ha hb hz]
  exact isZero_signed_zero _

/-- Settles O43: four products with a zero coefficient are zeros, and each is added to or taken from the input. -/
theorem identityStageKeepsItsInput : Obligations.IdentityStageKeepsItsInput := by
  unfold Obligations.IdentityStageKeepsItsInput
  rintro d c h x rfl h1 h2 h3 h4 hx
  have hzero : ∀ (n : Nat) {y : F32}, isFinite y = true → isZero (fmul n 0#32 y) = true :=
    fun n _ hy => isZero_fmul (by decide) hy (.inl (by decide)) n
  unfold bqOutput
  dsimp only
  rw [fmul_one hx]
  refine ⟨fun hne => ?other, fun hneg => ?negativeZero⟩
  case other =>
    rw [fadd_zero hx hne (hzero _ h1), fadd_zero hx hne (hzero _ h2), fsub_zero hx hne (hzero _ h3),
      fsub_zero hx hne (hzero _ h4)]
  case negativeZero =>
    have hz : isZero x = true := by rw [hneg]; decide
    exact isZero_fsub (isZero_fsub (isZero_fadd (isZero_fadd hz (hzero _ h1) _) (hzero _ h2) _) (hzero _ h3) _)
      (hzero _ h4) _

/-- R18: the constants of a stage are finite. -/
def FiniteCoeffs (c : Coeffs) : Prop :=
  isFinite c.a0 = true ∧ isFinite c.a1 = true ∧ isFinite c.a2 = true ∧ isFinite c.b1 = true ∧ isFinite c.b2 = true

/-- R16: the history of a stage is zeros, of either sign. -/
def ZeroHistory (h : History) : Prop :=
  isZero h.inZ1 = true ∧ isZero h.inZ2 = true ∧ isZero h.outZ1 = true ∧ isZero h.outZ2 = true

/-- R73: five zero products sum to a zero. -/
theorem isZero_bqOutput {c : Coeffs} {h : History} {x : F32} (hc : FiniteCoeffs c) (hh : ZeroHistory h)
    (hx : isZero x = true) (d : Nat) : isZero (bqOutput d c h x) = true := by
  obtain ⟨c0, c1, c2, c3, c4⟩ := hc
  obtain ⟨h1, h2, h3, h4⟩ := hh
  have hzero : ∀ (n : Nat) {a y : F32}, isFinite a = true → isZero y = true → isZero (fmul n a y) = true :=
    fun n _ _ ha hy => isZero_fmul ha (isFinite_of_isZero hy) (.inr hy) n
  exact isZero_fsub (isZero_fsub (isZero_fadd (isZero_fadd (hzero _ c0 hx) (hzero _ c1 h1) _) (hzero _ c2 h2) _)
    (hzero _ c3 h3) _) (hzero _ c4 h4) _

theorem zeroHistory_shiftHistory {h : History} {x y : F32} (hh : ZeroHistory h) (hx : isZero x = true)
    (hy : isZero y = true) : ZeroHistory (shiftHistory h x y) := ⟨hx, hh.1, hy, hh.2.2.1⟩

/-- R73: silence through one stage. -/
theorem silent_bqApply {k : Fin 9} {x : F32} {s : State} (hc : FiniteCoeffs (readCoef s k))
    (hh : ZeroHistory (readHist s k)) (hx : isZero x = true) :
    isZero (bqApply k x s).1 = true ∧ ZeroHistory (readHist (bqApply k x s).2 k) := by
  have hy : isZero (bqApply k x s).1 = true := isZero_bqOutput hc hh hx s.draws
  rw [readHist_bqApply_self]
  exact ⟨hy, zeroHistory_shiftHistory hh hx hy⟩

/-- Settles O42. -/
theorem silentStage : Obligations.SilentStage := by
  unfold Obligations.SilentStage
  intro k x s c0 c1 c2 c3 c4 h1 h2 h3 h4 hx
  exact silent_bqApply ⟨c0, c1, c2, c3, c4⟩ ⟨h1, h2, h3, h4⟩ hx

/-! ### Samples as binary32 values -/

theorem natAbs_toInt_le (v : Sample) : v.toInt.natAbs ≤ 2 ^ 15 := by
  have := BitVec.le_toInt v
  have := @BitVec.toInt_lt 16 v
  omega

theorem sampleUnits_lt (v : Sample) : v.toInt.natAbs * 2 ^ 149 < overflowUnits :=
  Nat.lt_of_le_of_lt (Nat.mul_le_mul_right _ (natAbs_toInt_le v)) (by decide)

/-- R94: 16 bits fit in a significand. -/
theorem units_i2f (v : Sample) : units (i2f v) = v.toInt.natAbs * 2 ^ 149 := by
  have hle := natAbs_toInt_le v
  have hgrid : 2 ^ binade (v.toInt.natAbs * 2 ^ 149) ∣ v.toInt.natAbs * 2 ^ 149 := by
    refine (pow_dvd_pow 2 ?_).trans (Nat.dvd_mul_left _ _)
    rcases binade_eq_zero_or (v.toInt.natAbs * 2 ^ 149) with h | h
    · omega
    · have hpow := h.trans (Nat.mul_le_mul_right (2 ^ 149) hle)
      rw [← pow_add, Nat.pow_le_pow_iff_right Nat.one_lt_two] at hpow
      omega
  have h := units_roundMag_mul (decide (v.toInt < 0)) Nat.one_pos (sampleUnits_lt v) hgrid
  rwa [Nat.mul_one] at h

theorem roundMag_lt_two_pow (num den : Nat) : roundMag num den < 2 ^ 31 :=
  Nat.lt_of_le_of_lt (roundMag_le num den) (by decide)

theorem fSign_i2f (v : Sample) : fSign (i2f v) = decide (v.toInt < 0) := fSign_signed (roundMag_lt_two_pow _ _)

theorem value_i2f (v : Sample) : value (i2f v) = v.toInt * 2 ^ 149 := by
  rw [value, units_i2f, fSign_i2f]
  by_cases h : v.toInt < 0
  · rw [decide_eq_true h, if_pos rfl]
    push_cast
    rw [abs_of_neg h]
    ring
  · rw [decide_eq_false h, if_neg Bool.false_ne_true]
    push_cast
    rw [abs_of_nonneg (not_lt.mp h)]

theorem isFinite_i2f (v : Sample) : isFinite (i2f v) = true :=
  isFinite_signed (roundMag_of_lt Nat.one_pos (by rw [Nat.mul_one]; exact sampleUnits_lt v)).2

/-- Settles O51. -/
theorem sampleToFloatIsExact : Obligations.SampleToFloatIsExact := by
  unfold Obligations.SampleToFloatIsExact
  exact ⟨fun v => ⟨isFinite_i2f v, value_i2f v⟩, by decide⟩

end Sys2Proof.Proofs
end

section
/-! PROOFS. SMP.NORM and SMP.RESCALE (spec/44_sample_conversion.md R91, R92), and the round trip (R98). -/

namespace Sys2Proof.Proofs

open Sys2Proof.Machine Sys2Proof.Safety

/-! ### The constant 32767 -/

theorem units_scale : units Config.scale = 32767 * 2 ^ 149 := by decide

theorem value_scale : value Config.scale = 32767 * 2 ^ 149 := by decide

theorem isFinite_scale : isFinite Config.scale = true := by decide

theorem smpNorm_zero (d : Nat) : smpNorm d 0#16 = 0x00000000#32 := by
  rw [smpNorm, fdiv_finite (isFinite_i2f 0#16) isFinite_scale (by decide)]
  decide

/-- Settles O55: the quotient of two exact values, in units that both parts share. -/
theorem normalisationDividesBy32767 : Obligations.NormalisationDividesBy32767 := by
  unfold Obligations.NormalisationDividesBy32767
  refine ⟨value_scale, fun d => ⟨fun v => ⟨rfl, ?_⟩, smpNorm_zero d⟩⟩
  have h := divisionRoundsToNearestEven d (i2f v) Config.scale (isFinite_i2f v) isFinite_scale (by decide)
  have hsign : (value Config.scale).sign = 1 := by decide
  rw [hsign, value_i2f, units_scale, one_mul] at h
  exact roundsTo_of_scaled (Nat.two_pow_pos 149) h

/-- Settles O56: the product of two exact values, in units that it shares with the divisor; then O52. -/
theorem rescalingMultipliesBy32767AndTruncates : Obligations.RescalingMultipliesBy32767AndTruncates := by
  unfold Obligations.RescalingMultipliesBy32767AndTruncates
  rintro d y q rfl
  refine ⟨rfl, fun hy => ?product, conversionTruncatesTowardZero (d + 1) _⟩
  have h := multiplicationRoundsToNearestEven d y Config.scale hy isFinite_scale
  rw [value_scale, ← mul_assoc, ← Nat.one_mul (2 ^ 149)] at h
  exact roundsTo_of_scaled (Nat.two_pow_pos 149) h

/-! ### The round trip -/

/-- A common factor of both parts of a quotient does not matter to its rounding. -/
theorem roundNat_mul_mul (n d : Nat) {c : Nat} (hc : 0 < c) : roundNat (n * c) (d * c) = roundNat n d := by
  have hgt : 2 * (n % d * c) > d * c ↔ 2 * (n % d) > d := by
    rw [← mul_assoc]; exact Nat.mul_lt_mul_right hc
  have heq : 2 * (n % d * c) = d * c ↔ 2 * (n % d) = d := by
    rw [← mul_assoc]; exact Nat.mul_left_inj hc.ne'
  simp only [roundNat, Nat.mul_div_mul_right _ _ hc, Nat.mul_mod_mul_right, hgt, heq]

theorem roundMag_mul_mul (num den : Nat) {c : Nat} (hc : 0 < c) : roundMag (num * c) (den * c) = roundMag num den := by
  simp only [roundMag, Nat.mul_div_mul_right _ _ hc, Nat.mul_right_comm den c, roundNat_mul_mul _ _ hc]

/-- Rounding moves a quotient by half a step at most. -/
theorem two_mul_roundNat_sub_le (n : Nat) {d : Nat} (hd : 0 < d) :
    2 * ((roundNat n d : Int) * d - n).natAbs ≤ d := by
  have hfloor := (roundNat_nearest n hd ((n / d : Nat) + 0)).1
  have hceil := (roundNat_nearest n hd ((n / d : Nat) + 1)).1
  have hmod := Nat.mod_lt n hd
  rw [floor_add_mul_sub] at hfloor hceil
  omega

/-- Two multiples of `g` less than `g` apart are equal. -/
theorem eq_of_dvd_of_close {a b g : Nat} (ha : g ∣ a) (hb : g ∣ b) (h : ((a : Int) - b).natAbs < g) : a = b := by
  have hdvd : (g : Int) ∣ a - b := Int.dvd_sub (Int.natCast_dvd_natCast.mpr ha) (Int.natCast_dvd_natCast.mpr hb)
  have hzero := Int.eq_zero_of_abs_lt_dvd hdvd (by rw [Int.abs_eq_natAbs]; exact_mod_cast h)
  omega

theorem natAbs_sub_le_of_nearer {q w p : Int} (h : (q - p).natAbs ≤ (w - p).natAbs) :
    (q - w).natAbs ≤ 2 * (p - w).natAbs := by omega

theorem le_of_close {q w b a : Nat} (h : ((q : Int) - w).natAbs ≤ b) (hw : a + b ≤ w) : a ≤ q := by omega

/-- R98: a value `q` of the format within `2 * b` steps of the whole number `m * 2^e` of units, where the steps of
the format are `2^f` wide and more than `2 * b`, is that number. -/
theorem eq_of_close_on_grid {m e f b q : Nat} (hgrid : ∀ g, 2 ^ (23 + g) ≤ q → 2 ^ g ∣ q) (hm : 2 ^ f ∣ m)
    (hclose : ((q : Int) - (m * 2 ^ e : Nat)).natAbs ≤ 2 * b * 2 ^ e) (hstep : 2 * b < 2 ^ f)
    (hlow : 2 ^ (23 + f) + 2 * b ≤ m) : q = m * 2 ^ e := by
  have hq : 2 ^ (23 + (f + e)) ≤ q := by
    refine le_of_close hclose ?_
    rw [← add_assoc, pow_add 2 (23 + f) e, ← Nat.add_mul]
    exact Nat.mul_le_mul_right _ hlow
  refine eq_of_dvd_of_close (hgrid _ hq) ?_ (Nat.lt_of_le_of_lt hclose ?_)
  · rw [pow_add]
    exact Nat.mul_dvd_mul_right hm _
  · rw [pow_add]
    exact Nat.mul_lt_mul_of_pos_right hstep (Nat.two_pow_pos e)

/-- R98, the arithmetic. A quotient `M * 2^23 / 32767` with `32767 ≤ M` is rounded to `k`, and `32767 * k` to the
value `q` of the format, all in steps of `2^e` units. The second rounding returns to `M * 2^23`, since the error of
the first, 32767 times, is less than half a step of the format there: by its bound, but at `M = 2^15`, where the
steps below are half as wide, by its value. -/
theorem rescaled_eq {M e q : Nat} (hlow : 32767 ≤ M) (hgrid : ∀ g, 2 ^ (23 + g) ≤ q → 2 ^ g ∣ q)
    (hnear : ((q : Int) - (roundNat (M * 2 ^ 23) 32767 * 32767 * 2 ^ e : Nat)).natAbs ≤
      ((M * 2 ^ 23 * 2 ^ e : Nat) - (roundNat (M * 2 ^ 23) 32767 * 32767 * 2 ^ e : Nat) : Int).natAbs) :
    q = M * 2 ^ 23 * 2 ^ e := by
  have hhalf := two_mul_roundNat_sub_le (M * 2 ^ 23) (d := 32767) (by decide)
  have hclose := natAbs_sub_le_of_nearer hnear
  have herr : ((roundNat (M * 2 ^ 23) 32767 * 32767 * 2 ^ e : Nat) - (M * 2 ^ 23 * 2 ^ e : Nat) : Int) =
      ((roundNat (M * 2 ^ 23) 32767 : Int) * (32767 : Nat) - (M * 2 ^ 23 : Nat)) * (2 ^ e : Nat) := by
    push_cast
    ring
  rw [herr, Int.natAbs_mul, Int.natAbs_natCast, ← mul_assoc] at hclose
  have hfactor : ∀ f, f ≤ 23 → 2 ^ f ∣ M * 2 ^ 23 := fun f hf => (pow_dvd_pow 2 hf).trans (Nat.dvd_mul_left _ _)
  rcases (show M = 32767 ∨ M = 32768 ∨ 32769 ≤ M by omega) with rfl | rfl | h
  · have hexact : ((roundNat (32767 * 2 ^ 23) 32767 : Int) * (32767 : Nat) - (32767 * 2 ^ 23 : Nat)).natAbs = 0 := by
      decide
    rw [hexact, mul_zero, zero_mul, Nat.le_zero, Int.natAbs_eq_zero, sub_eq_zero] at hclose
    exact_mod_cast hclose
  · have hsmall : ((roundNat (32768 * 2 ^ 23) 32767 : Int) * (32767 : Nat) - (32768 * 2 ^ 23 : Nat)).natAbs = 256 := by
      decide
    rw [hsmall] at hclose
    exact eq_of_close_on_grid hgrid (hfactor 14 (by decide)) hclose (by decide) (by decide)
  · have hsmall : ((roundNat (M * 2 ^ 23) 32767 : Int) * (32767 : Nat) - (M * 2 ^ 23 : Nat)).natAbs ≤ 16383 := by
      omega
    refine eq_of_close_on_grid hgrid (hfactor 15 (by decide))
      (hclose.trans (Nat.mul_le_mul_right _ (Nat.mul_le_mul_left 2 hsmall))) (by decide) ?_
    exact (show 2 ^ (23 + 15) + 2 * 16383 ≤ 32769 * 2 ^ 23 by decide).trans (Nat.mul_le_mul_right _ h)

/-- R91: the sample's magnitude, divided by 32767 and rounded. -/
theorem smpNorm_eq (d : Nat) (v : Sample) :
    smpNorm d v = signed (fSign (i2f v)) (roundMag (units (i2f v)) 32767) := by
  have hsign : fSign Config.scale = false := by decide
  rw [smpNorm, fdiv_finite (isFinite_i2f v) isFinite_scale (by decide), units_scale, hsign, Bool.bne_false,
    roundMag_mul_mul _ _ (Nat.two_pow_pos 149)]

theorem units_i2f_lt (v : Sample) : units (i2f v) < overflowUnits := by
  rw [units_i2f]
  exact sampleUnits_lt v

theorem units_i2f_lt_mul (v : Sample) : units (i2f v) < overflowUnits * 32767 :=
  (units_i2f_lt v).trans_le (Nat.le_mul_of_pos_right _ (by decide))

theorem isFinite_smpNorm (d : Nat) (v : Sample) : isFinite (smpNorm d v) = true := by
  rw [smpNorm_eq]
  exact isFinite_signed (roundMag_of_lt (by decide) (units_i2f_lt_mul v)).2

/-- R92: a finite value's magnitude, multiplied by 32767 and rounded. -/
theorem fmul_scale {y : F32} (hy : isFinite y = true) (d : Nat) :
    fmul d y Config.scale = signed (fSign y) (roundMag (units y * 32767) 1) := by
  have hsign : fSign Config.scale = false := by decide
  rw [fmul_finite hy isFinite_scale, units_scale, hsign, Bool.bne_false, ← mul_assoc]
  exact congrArg _ ((congrArg _ (Nat.one_mul _).symm).trans (roundMag_mul_mul _ 1 (Nat.two_pow_pos 149)))

/-- R68: no value of the format is nearer to a whole number of units than what it is rounded to. -/
theorem units_roundMag_nearest (neg : Bool) {num : Nat} (h : num < overflowUnits) (c : F32) :
    ((units (signed neg (roundMag num 1)) : Int) - num).natAbs ≤ ((units c : Int) - num).natAbs := by
  have hnear := (significand_nearest num Nat.one_pos (v := (units c : Int)) two_pow_dvd_units).1
  rw [units_roundMag neg Nat.one_pos (by rwa [Nat.mul_one])]
  simpa using hnear

/-- R98: the magnitude of a sample other than 0, in steps of the binade of its quotient by 32767. -/
theorem units_i2f_steps {v : Sample} (hv : v.toInt ≠ 0) :
    ∃ M, units (i2f v) = M * 2 ^ 23 * 2 ^ binade (units (i2f v) / 32767) ∧ 32767 ≤ M ∧
      binade (units (i2f v) / 32767) ≤ 126 := by
  rw [units_i2f]
  have hle := natAbs_toInt_le v
  have hpos : 1 ≤ v.toInt.natAbs := Nat.one_le_iff_ne_zero.mpr (Int.natAbs_ne_zero.mpr hv)
  generalize v.toInt.natAbs = N at *
  have hnormal : 2 ^ (23 + binade (N * 2 ^ 149 / 32767)) * 32767 ≤ N * 2 ^ 149 := by
    rw [← Nat.le_div_iff_mul_le (by decide)]
    refine (binade_eq_zero_or _).resolve_left fun h0 => ?_
    have hlt := lt_two_pow_binade (N * 2 ^ 149 / 32767)
    rw [h0, Nat.div_lt_iff_lt_mul (by decide)] at hlt
    omega
  generalize binade (N * 2 ^ 149 / 32767) = e at *
  have he : 23 + e < 150 := by
    refine (Nat.pow_lt_pow_iff_right Nat.one_lt_two).mp (Nat.lt_of_mul_lt_mul_right (a := 32767) ?_)
    exact hnormal.trans_lt ((Nat.mul_le_mul_right _ hle).trans_lt (by decide))
  have hsplit : N * 2 ^ 149 = N * 2 ^ (126 - e) * 2 ^ (23 + e) := by
    rw [mul_assoc, ← pow_add]
    congr 2
    omega
  refine ⟨N * 2 ^ (126 - e), by rw [hsplit]; ring, ?_, by omega⟩
  rw [hsplit, mul_comm _ 32767] at hnormal
  exact Nat.le_of_mul_le_mul_right hnormal (Nat.two_pow_pos _)

/-- R98: the product of the rounded quotient is the sample's magnitude again, and in range. -/
theorem units_normalised_mul (v : Sample) (d : Nat) (neg : Bool) :
    units (smpNorm d v) * 32767 < overflowUnits ∧
      units (signed neg (roundMag (units (smpNorm d v) * 32767) 1)) = units (i2f v) := by
  by_cases hv : v.toInt = 0
  case pos =>
    have hzero : units (i2f v) = 0 := by rw [units_i2f, hv]; rfl
    rw [smpNorm_eq, hzero, roundMag_zero, units_signed_zero, Nat.zero_mul, roundMag_zero, units_signed_zero]
    exact ⟨by decide, rfl⟩
  obtain ⟨M, hM, hlow, he⟩ := units_i2f_steps hv
  have hk := significand_le (units (i2f v)) (den := 32767) (by decide)
  have hsignificand : significand (units (i2f v)) 32767 = roundNat (M * 2 ^ 23) 32767 := by
    rw [significand]
    generalize binade (units (i2f v) / 32767) = e at hM ⊢
    rw [hM, roundNat_mul_mul _ _ (Nat.two_pow_pos e)]
  have hx : units (smpNorm d v) * 32767 =
      roundNat (M * 2 ^ 23) 32767 * 32767 * 2 ^ binade (units (i2f v) / 32767) := by
    rw [smpNorm_eq, units_roundMag _ (by decide) (units_i2f_lt_mul v), hsignificand, Nat.mul_right_comm]
  rw [hsignificand] at hk
  have hlt : units (smpNorm d v) * 32767 < overflowUnits := by
    rw [hx]
    calc roundNat (M * 2 ^ 23) 32767 * 32767 * 2 ^ binade (units (i2f v) / 32767)
        ≤ 2 ^ 24 * 32767 * 2 ^ 126 :=
          Nat.mul_le_mul (Nat.mul_le_mul_right _ hk) (Nat.pow_le_pow_right Nat.two_pos he)
      _ < overflowUnits := by decide
  have hnear := units_roundMag_nearest neg hlt (i2f v)
  refine ⟨hlt, ?_⟩
  generalize hq : signed neg (roundMag (units (smpNorm d v) * 32767) 1) = q at hnear ⊢
  rw [hx] at hnear
  generalize binade (units (i2f v) / 32767) = e at *
  rw [hM] at hnear ⊢
  exact rescaled_eq hlow (fun _ => two_pow_dvd_units) hnear

/-- R98: rescaling a normalised sample gives its value before the truncation already. -/
theorem value_normalised_mul (d d' : Nat) (v : Sample) :
    isFinite (fmul d' (smpNorm d v) Config.scale) = true ∧
      value (fmul d' (smpNorm d v) Config.scale) = v.toInt * 2 ^ 149 := by
  obtain ⟨hlt, hunits⟩ := units_normalised_mul v d (fSign (smpNorm d v))
  have hsign : fSign (smpNorm d v) = fSign (i2f v) := by rw [smpNorm_eq, fSign_signed (roundMag_lt_two_pow _ _)]
  rw [fmul_scale (isFinite_smpNorm d v)]
  refine ⟨isFinite_signed (roundMag_of_lt Nat.one_pos (by rwa [Nat.mul_one])).2, ?_⟩
  rw [value_signed (roundMag_lt_two_pow _ _), hunits, hsign, ← value_i2f]
  rfl

/-- Settles O53: the product has the sample's own value, which has no fraction to drop. -/
theorem roundTripIsExact : Obligations.RoundTripIsExact := by
  unfold Obligations.RoundTripIsExact
  intro d d' v
  refine ⟨isFinite_smpNorm d v, ?_⟩
  obtain ⟨hfinite, hvalue⟩ := value_normalised_mul d d' v
  have hle := BitVec.le_toInt v
  have hlt := @BitVec.toInt_lt 16 v
  have hrange : f2iInRange (fmul d' (smpNorm d v) Config.scale) = true := by
    rw [f2iInRange_iff, hvalue]
    exact ⟨hfinite, by omega, by omega⟩
  rw [smpRescale, f2i_inRange hrange, hvalue, Int.mul_tdiv_cancel _ (by decide), BitVec.ofInt_toInt]

end Sys2Proof.Proofs
end

section
/-! PROOFS. A stage over time: its determinism and its NaNs (spec/40_biquad.md R66, R69), its history
(spec/10_state.md R15), and silence through the whole block (R73). -/

namespace Sys2Proof.Proofs

open Sys2Proof.Machine Sys2Proof.Safety

/-! ### Equal but for the choice of a NaN -/

/-- Both are NaNs, or they are one value. -/
def SameUpToNaN (x y : F32) : Prop := x = y ∨ isNaN x = true ∧ isNaN y = true

theorem sameUpToNaN_refl (x : F32) : SameUpToNaN x x := .inl rfl

theorem sameUpToNaN_of_isNaN {x y : F32} (h : SameUpToNaN x y) :
    isNaN x = isNaN y ∧ (isNaN x = false → x = y) := by
  rcases h with rfl | ⟨hx, hy⟩
  · exact ⟨rfl, fun _ => rfl⟩
  · exact ⟨hx.trans hy.symm, fun h => by rw [hx] at h; exact absurd h nofun⟩

/-- An operation that answers NaN operands with the NaN of its draw, and whose answer is otherwise that NaN or a value
no draw touches, keeps operands alike. -/
theorem sameUpToNaN_op {op : Nat → F32 → F32 → F32}
    (hnan : ∀ {a b : F32}, isNaN a = true ∨ isNaN b = true → ∀ d, op d a b = nanOf d)
    (hfixed : ∀ a b, NaNOrFixed fun d => op d a b) {a a' b b' : F32} (ha : SameUpToNaN a a')
    (hb : SameUpToNaN b b') (d d' : Nat) : SameUpToNaN (op d a b) (op d' a' b') := by
  have hnans : ∀ {x y : F32} {n : Nat}, x = nanOf d → y = nanOf n → SameUpToNaN x y := fun hx hy =>
    .inr ⟨hx ▸ isNaN_nanOf _, hy ▸ isNaN_nanOf _⟩
  rcases ha with rfl | ⟨ha, ha'⟩
  · rcases hb with rfl | ⟨hb, hb'⟩
    · rcases hfixed a b with h | ⟨v, -, h⟩
      · exact hnans (h d) (h d')
      · exact .inl ((h d).trans (h d').symm)
    · exact hnans (hnan (.inr hb) d) (hnan (.inr hb') d')
  · exact hnans (hnan (.inl ha) d) (hnan (.inl ha') d')

theorem sameUpToNaN_fmul (d d' : Nat) (a b : F32) : SameUpToNaN (fmul d a b) (fmul d' a b) :=
  sameUpToNaN_op fmul_of_isNaN fmul_nanOrFixed (sameUpToNaN_refl a) (sameUpToNaN_refl b) d d'

theorem sameUpToNaN_fadd {a a' b b' : F32} (ha : SameUpToNaN a a') (hb : SameUpToNaN b b') (d d' : Nat) :
    SameUpToNaN (fadd d a b) (fadd d' a' b') := sameUpToNaN_op fadd_of_isNaN fadd_nanOrFixed ha hb d d'

theorem sameUpToNaN_fsub {a a' b b' : F32} (ha : SameUpToNaN a a') (hb : SameUpToNaN b b') (d d' : Nat) :
    SameUpToNaN (fsub d a b) (fsub d' a' b') := sameUpToNaN_op fsub_of_isNaN fsub_nanOrFixed ha hb d d'

/-- R66: a stage's output depends on its draws in the choice of a NaN only. -/
theorem sameUpToNaN_bqOutput (d d' : Nat) (c : Coeffs) (h : History) (x : F32) :
    SameUpToNaN (bqOutput d c h x) (bqOutput d' c h x) :=
  sameUpToNaN_fsub (sameUpToNaN_fsub (sameUpToNaN_fadd (sameUpToNaN_fadd (sameUpToNaN_fmul _ _ _ _)
    (sameUpToNaN_fmul _ _ _ _) _ _) (sameUpToNaN_fmul _ _ _ _) _ _) (sameUpToNaN_fmul _ _ _ _) _ _)
    (sameUpToNaN_fmul _ _ _ _) _ _

/-- Settles O38. -/
theorem stageIsDeterministicUpToNaN : Obligations.StageIsDeterministicUpToNaN := by
  unfold Obligations.StageIsDeterministicUpToNaN
  intro k x s s' hcoef hhist
  rw [bqApply_fst, bqApply_fst, hcoef, hhist]
  obtain ⟨hnan, hvalue⟩ := sameUpToNaN_of_isNaN
    (sameUpToNaN_bqOutput s.draws s'.draws (readCoef s k) (readHist s k) x)
  exact ⟨hnan.symm, fun h => (hvalue h).symm⟩

/-! ### A NaN stays -/

theorem isNaN_fmul_right {a b : F32} (h : isNaN b = true) (d : Nat) : isNaN (fmul d a b) = true := by
  rw [fmul_of_isNaN (.inr h)]; exact isNaN_nanOf d

theorem isNaN_fadd_left {a b : F32} (h : isNaN a = true) (d : Nat) : isNaN (fadd d a b) = true := by
  rw [fadd_of_isNaN (.inl h)]; exact isNaN_nanOf d

theorem isNaN_fsub_left {a b : F32} (h : isNaN a = true) (d : Nat) : isNaN (fsub d a b) = true := by
  rw [fsub_of_isNaN (.inl h)]; exact isNaN_nanOf d

theorem isNaN_fsub_right {a b : F32} (h : isNaN b = true) (d : Nat) : isNaN (fsub d a b) = true := by
  rw [fsub_of_isNaN (.inr h)]; exact isNaN_nanOf d

/-- R69: a NaN input reaches the output through the first product and the four sums. -/
theorem isNaN_bqApply_of_input {k : Fin 9} {x : F32} {s : State} (h : isNaN x = true) :
    isNaN (bqApply k x s).1 = true :=
  isNaN_fsub_left (isNaN_fsub_left (isNaN_fadd_left (isNaN_fadd_left (isNaN_fmul_right h _) _) _) _) _

/-- R69: a NaN in the last output reaches the output through the fourth product. -/
theorem isNaN_bqApply_of_outZ1 {k : Fin 9} {x : F32} {s : State} (h : isNaN (readHist s k).outZ1 = true) :
    isNaN (bqApply k x s).1 = true :=
  isNaN_fsub_left (isNaN_fsub_right (isNaN_fmul_right h _) _) _

theorem isNaN_applyStages {ks : List (Fin 9)} {x : F32} {s : State} (h : isNaN x = true) :
    isNaN (applyStages ks x s).1 = true := by
  induction ks generalizing x s with
  | nil => exact h
  | cons k ks ih => exact ih (isNaN_bqApply_of_input h)

theorem not_mem_take_stageOrder (k : Fin 9) : k ∉ stageOrder.take k.val := by revert k; decide

/-- R140: the stage of the chain that holds the NaN gives one out. -/
theorem isNaN_chainPrefix_succ {k : Fin 9} {x : F32} {s : State} (h : isNaN (readHist s k).outZ1 = true) :
    isNaN (chainPrefix (k.val + 1) x s).1 = true := by
  rw [chainPrefix_succ]
  refine isNaN_bqApply_of_outZ1 ?_
  rwa [chainPrefix, readHist_applyStages_of_not_mem (not_mem_take_stageOrder k)]

/-- Settles O41: the NaN is in the stage's output, which is its next history and the next stage's input. -/
theorem naNNeverLeavesAStage : Obligations.NaNNeverLeavesAStage := by
  unfold Obligations.NaNNeverLeavesAStage
  intro k x s h
  refine ⟨isNaN_bqApply_of_outZ1 h, ?ownHistory, ?chain, ?chainHistory⟩
  case ownHistory =>
    rw [readHist_bqApply_self]
    exact isNaN_bqApply_of_outZ1 h
  case chain =>
    have hsplit : stageOrder = stageOrder.take (k.val + 1) ++ stageOrder.drop (k.val + 1) :=
      (List.take_append_drop _ _).symm
    rw [chainApplyAll, hsplit, applyStages_append]
    exact isNaN_applyStages (isNaN_chainPrefix_succ h)
  case chainHistory =>
    rw [readHist_chainApplyAll]
    exact isNaN_chainPrefix_succ h

/-! ### The last two inputs and outputs -/

/-- An entry before a list's last is an entry without the last. -/
theorem getElem?_append_pair {α : Type} (l : List α) (a b c : α) {i : Nat} (hi : i < 2) :
    (l ++ [a] ++ [b, c])[i]? = (l ++ [a, b])[i]? := by
  rw [show l ++ [a] ++ [b, c] = l ++ [a, b] ++ [c] by simp, List.getElem?_append_left (by simp; omega)]

/-- Settles O39: each step puts its input and output in front of what the history held. -/
theorem historyHoldsTheLastTwo : Obligations.HistoryHoldsTheLastTwo := by
  unfold Obligations.HistoryHoldsTheLastTwo
  intro k xs s
  induction xs generalizing s with
  | nil => exact ⟨rfl, rfl, rfl, rfl, rfl⟩
  | cons x xs ih =>
    obtain ⟨hlength, hin1, hin2, hout1, hout2⟩ := ih (bqApply k x s).2
    rw [readHist_bqApply_self] at hin1 hin2 hout1 hout2
    simp only [runStage, List.reverse_cons, List.length_cons]
    rw [getElem?_append_pair _ _ _ _ (by decide), getElem?_append_pair _ _ _ _ (by decide),
      getElem?_append_pair _ _ _ _ (by decide), getElem?_append_pair _ _ _ _ (by decide)]
    exact ⟨congrArg Nat.succ hlength, hin1, hin2, hout1, hout2⟩

/-! ### Silence -/

/-- R73: every stage has finite constants and a history of zeros. -/
def Silent (s : State) : Prop := ∀ k, FiniteCoeffs (readCoef s k) ∧ ZeroHistory (readHist s k)

theorem silent_useDraws {s : State} (n : Nat) (h : Silent s) : Silent (useDraws n s) := h

theorem silent_of_bqApply {k : Fin 9} {x : F32} {s : State} (h : Silent s) (hx : isZero x = true) :
    isZero (bqApply k x s).1 = true ∧ Silent (bqApply k x s).2 := by
  obtain ⟨hy, hk⟩ := silent_bqApply (h k).1 (h k).2 hx
  refine ⟨hy, fun j => ⟨(h j).1, ?_⟩⟩
  by_cases hj : j = k
  · exact hj ▸ hk
  · rw [readHist_bqApply_of_ne hj]
    exact (h j).2

theorem silent_applyStages {ks : List (Fin 9)} {x : F32} {s : State} (h : Silent s) (hx : isZero x = true) :
    isZero (applyStages ks x s).1 = true ∧ Silent (applyStages ks x s).2 := by
  induction ks generalizing x s with
  | nil => exact ⟨hx, h⟩
  | cons k ks ih =>
    obtain ⟨hy, hs⟩ := silent_of_bqApply (k := k) h hx
    exact ih hs hy

/-- R92, R95: a zero, of either sign, is rescaled to the sample 0. -/
theorem smpRescale_of_isZero {y : F32} (h : isZero y = true) (d : Nat) : smpRescale d y = 0#16 := by
  rw [smpRescale, fmul_of_isZero (isFinite_of_isZero h) isFinite_scale (.inl h)]
  cases fSign y != fSign Config.scale <;> exact (f2i_inRange (by decide) _).trans (by decide)

theorem silent_filterSample {s : State} (h : Silent s) :
    (filterSample 0#16 s).1 = 0#16 ∧ Silent (filterSample 0#16 s).2 := by
  have hx : isZero (smpNorm s.draws 0#16) = true := by
    rw [smpNorm_zero]
    decide
  obtain ⟨hy, hs⟩ := silent_applyStages (ks := stageOrder) (silent_useDraws 1 h) hx
  rw [filterSample_eq]
  exact ⟨smpRescale_of_isZero hy _, silent_useDraws 2 hs⟩

theorem silent_filterAll (n : Nat) {s : State} (h : Silent s) :
    (filterAll (List.replicate n 0#16) s).1 = List.replicate n 0#16 ∧
      Silent (filterAll (List.replicate n 0#16) s).2 := by
  induction n generalizing s with
  | zero => exact ⟨rfl, h⟩
  | succ n ih =>
    obtain ⟨hout, hs⟩ := silent_filterSample h
    obtain ⟨hrest, hend⟩ := ih hs
    rw [List.replicate_succ, filterAll_cons, hout, hrest]
    exact ⟨rfl, hend⟩

theorem bytesOf_replicate_zero (n : Nat) : bytesOf (List.replicate n 0#16) = List.replicate (2 * n) 0#8 := by
  induction n with
  | zero => rfl
  | succ n ih =>
    rw [List.replicate_succ, bytesOf_cons, ih, Nat.mul_succ, List.replicate_succ, List.replicate_succ]
    rfl

theorem samplesOf_replicate_zero (n : Nat) : samplesOf (List.replicate (2 * n) 0#8) = List.replicate n 0#16 := by
  induction n with
  | zero => rfl
  | succ n ih =>
    rw [Nat.mul_succ, List.replicate_succ, List.replicate_succ, samplesOf_cons, ih, List.replicate_succ]
    rfl

/-- Settles O36: the 64 samples 0 are filtered to samples 0 one after another, and the block is their bytes. -/
theorem silenceStaysSilent : Obligations.SilenceStaysSilent := by
  unfold Obligations.SilenceStaysSilent
  intro s w rest hw hl he ha hs hcoef hhist
  have hsilent : Silent s := fun k => ⟨hcoef k, hhist k⟩
  obtain ⟨t, b, hexec, hblocks, hfull, hbytes, hz, -⟩ :=
    exec_process_filters hw hl he ha hs (by decide) (by decide) List.length_replicate
  have hsamples : samplesOf (List.replicate 128 0#8) = List.replicate 64 0#16 := samplesOf_replicate_zero 64
  obtain ⟨hout, hend⟩ := silent_filterAll 64 hsilent
  rw [hsamples] at hbytes hz
  rw [hout, bytesOf_replicate_zero, List.take_of_length_le (by rw [hfull]; decide)] at hbytes
  refine ⟨t, hexec, by rw [hblocks, hbytes], fun k => ?_⟩
  have hsame : readHist t k = readHist (filterAll (List.replicate 64 0#16) s).2 k := by rw [readHist, hz]; rfl
  rw [hsame]
  exact (hend k).2

end Sys2Proof.Proofs
end
